-- ==== Sys2Proof/Word.lean ====
section
/-! DEFINITION. The types of the machine's values: the spec's bit vectors are the command word, the register
address and the error code. What an operand or result register holds is a mathematical natural (00_scope.md R7,
10_state.md R11, R12, R25), so its type is `Nat`; that it is below `2^W` is an invariant (`Safety.lean`), not part of
the type, because `W` may be unbounded (R6). -/

namespace Sys2Proof

/-- The 8-bit command word, format `CMD8` (R50). -/
abbrev CommandWord := BitVec 8

/-- A 4-bit register address; it names a whole register and is no byte address (R10). -/
abbrev RegAddr := BitVec 4

/-- The value of `STATUS.ERRCODE` (R14, R25: a natural below 16). -/
abbrev ErrCode := BitVec 4

end Sys2Proof
end

