-- ==== Sys2Proof/Config.lean ====
section
/-! DEFINITION. What an implementation fixes: the width parameter `W`, left OPEN by 00_scope.md R6, and the
totient threshold, which the spec fixes. -/

namespace Sys2Proof

/-- The values the parameter `W` may take (R6): unbounded, or an integer `W ≥ 16`, written `16 + above16`,
so that every term of this type is a legal width and no illegal one can be written. -/
inductive Width where
  /-- registers hold any natural -/
  | unbounded
  /-- `W = 16 + above16` -/
  | finite (above16 : Nat)
deriving DecidableEq, Repr, Inhabited

/-- The block's `W` (R6, D2). It has no body, so no proof can see which width it is: what is proved of the
machine holds for every legal `W`. Log entry 1 (DESIGN CHOICE). -/
opaque Config.width : Width

/-- `PHI_MIN`: the totient must be strictly greater than this (R6, R80). -/
def Config.phiMin : Nat := 127

end Sys2Proof
end

