-- ==== Sys2Proof/Syntax.lean ====
section
/-! DEFINITION. The syntax: the nine commands, the register names, and what the outside world presents to the
block (host transactions and the other events of a schedule). -/

namespace Sys2Proof

/-- The nine commands (R2, R51), one constructor per row of spec/opcode_table.json. A command word carries no
register number and no immediate (R50, R52), so no constructor has an argument. -/
inductive Instr where
  | gcd
  | modinv
  | modpow
  | totient
  | pubexp
  | keygen
  | factor
  | crack
  | clear
deriving DecidableEq, Repr

/-- The twelve registers of R10 by name. -/
inductive Reg where
  | cmd | status | ctrl | width
  | opa | opb | opm | opr
  | res0 | res1 | res2 | res3
deriving DecidableEq, Repr

/-- One host transaction (R30): `MemRead(addr, 1)` or `MemWrite(addr, 1, data)` of R8. Any 4-bit address is
well formed (R40). The write data of a read is ignored (R30), so a read carries none. -/
inductive Request where
  | read (addr : RegAddr)
  | write (addr : RegAddr) (data : Nat)
deriving DecidableEq, Repr

/-- One entry of a schedule: whose step comes next. An interleaving of host transactions, completions and
resets (R44, R109) is a list of these. Log entries 2, 4 and 5 (DESIGN CHOICE). -/
inductive Event where
  /-- the host presents this transaction -/
  | transact (r : Request)
  /-- the core's completion step is taken here, if one is enabled (`BUSY = 1`, R64) -/
  | complete
  /-- the host's `WAIT` (R55): it stays until a `STATUS` read shows `BUSY = 0` -/
  | wait
  /-- the host presents no transaction (R132) -/
  | quiet
  /-- `rst_n` is low; a transaction presented meanwhile is ignored (R120) -/
  | reset (presented : Option Request)
deriving DecidableEq, Repr

end Sys2Proof
end

