-- ==== Sys2Proof/Machine/State.lean ====
section
/-! DEFINITION. The state of the block (10_state.md R25), the ways a step can stop, the error kinds of
60_exceptions.md R101, and the state after reset (R23). -/

namespace Sys2Proof.Machine

/-- The architectural state of R25, and the model's own `schedule`. There is no memory and no program counter
(R18, R21); `phase` is `RUN` exactly when `busy` (R18, R25); `WIDTH` is a constant (R16). -/
structure State where
  /-- `OPA` (R11) -/
  opa : Nat
  /-- `OPB` (R11) -/
  opb : Nat
  /-- `OPM` (R11) -/
  opm : Nat
  /-- `OPR`, the host's draw `r` (R11, R81) -/
  opr : Nat
  /-- `RES0` (R12) -/
  res0 : Nat
  /-- `RES1` (R12) -/
  res1 : Nat
  /-- `RES2` (R12) -/
  res2 : Nat
  /-- `RES3` (R12) -/
  res3 : Nat
  /-- `CUR_CMD`, the word of the last accepted command (R13) -/
  curCmd : CommandWord
  /-- `STATUS.BUSY` (R14) -/
  busy : Bool
  /-- `STATUS.DONE` (R14) -/
  done : Bool
  /-- `STATUS.FAIL` (R14) -/
  fail : Bool
  /-- `STATUS.ERRCODE` (R14, R101) -/
  errCode : ErrCode
  /-- `CTRL.IE`, the only stored bit of `CTRL` (R15) -/
  ie : Bool
  /-- The model's own field, not the spec's: the events still to come, first one next (log entry 2). -/
  schedule : List Event
deriving DecidableEq, Repr

/-- Why the machine stops with a fault: never. The spec gives every command on every operand one outcome and
every transaction in every state one effect (93_implementation_defined.md section 2, R132), so there is no
constructor. A command failure (R104) and an access error (R106) are next states. Log entry 13 (safe). -/
inductive Fault where
deriving DecidableEq, Repr

/-- Why the machine refuses an instruction. -/
inductive Refusal where
  /-- raised only by an arm of `exec` whose command has no meaning yet; no arm raises it (safe) -/
  | notModelled (mnemonic : String)
deriving DecidableEq, Repr

/-- The error kinds of R101, by name; their codes are in `Machine/Flags.lean`. -/
inductive Failure where
  /-- code 1: `p = 0`, `q = 0` or `(p-1)*(q-1) ≤ 127`; raised by TOTIENT, PUBEXP, KEYGEN -/
  | invalidKeyMaterial
  /-- code 2: no coprime exponent in `[r, n-2]`; raised by PUBEXP, KEYGEN -/
  | searchExhausted
  /-- code 3: `n < 4` or `n` prime; raised by FACTOR, CRACK -/
  | unfactorableModulus
  /-- code 4: reserved, never raised (R114) -/
  | invalidInputType
  /-- code 5: no modular inverse; raised by MODINV, CRACK -/
  | notInvertible
  /-- code 6: a zero modulus, or a start `r` out of range; raised by MODINV, MODPOW, PUBEXP, KEYGEN -/
  | invalidOperand
  /-- code 7: an exact result is `≥ 2^W`; raised by TOTIENT, PUBEXP, KEYGEN -/
  | overflow
  /-- code 8: the command word is illegal (R98) -/
  | illegalCommand
  /-- code 9: the host aborted the command (R97) -/
  | aborted
deriving DecidableEq, Repr

/-- The four values of a successful outcome `Ok(r0, r1, r2, r3)` (R61). -/
structure Results where
  r0 : Nat
  r1 : Nat
  r2 : Nat
  r3 : Nat
deriving DecidableEq, Repr

/-- The state after reset: every component of R25 is 0 (R23). The model's own `schedule` is empty (log entry
16, DESIGN CHOICE): what the host presents comes from outside. -/
def State.reset : State where
  opa := 0
  opb := 0
  opm := 0
  opr := 0
  res0 := 0
  res1 := 0
  res2 := 0
  res3 := 0
  curCmd := 0
  busy := false
  done := false
  fail := false
  errCode := 0
  ie := false
  schedule := []

end Sys2Proof.Machine
end

