-- ==== Sys2Proof/Machine/Width.lean ====
section
/-! DEFINITION. What the width parameter decides: which values fit a register (R7), and what the `WIDTH` register
reads (R16). -/

namespace Sys2Proof

/-- `v` fits a `W`-bit register: `v < 2^W`, always when `W` is unbounded (R7). Every `W` is at least 16 (R6), so
the first test changes nothing (`Laws/Width.lean` proves it); with it a value below `2^16` is seen to fit by
evaluation alone, whatever `W` is. -/
def Width.fits (w : Width) (v : Nat) : Bool :=
  decide (v < 2 ^ 16) || match w with
    | .unbounded => true
    | .finite k => decide (v < 2 ^ (16 + k))

/-- What a read of `WIDTH` returns: `W` when `16 ≤ W ≤ 65535`, else 0 (R16). -/
def Width.register (w : Width) : Nat :=
  match w with
  | .unbounded => 0
  | .finite k => if 16 + k ≤ 65535 then 16 + k else 0

end Sys2Proof
end

