-- ==== Sys2Proof/Machine/Numeric.lean ====
section
/-! DEFINITION. The pure functions of files 41 to 43, each written as the spec's reference algorithm. A `while`
loop is a structural recursion on `fuel`, a bound on its rounds; `Laws/Numeric.lean` proves each loop's result
equal to the normative value, which also says that the fuel never runs out (log entry 12). -/

namespace Sys2Proof.Machine

/-- `while b != 0: (a, b) <- (b, a mod b)` (R71). -/
def gcdLoop (fuel a b : Nat) : Nat :=
  match fuel with
  | 0 => a
  | fuel + 1 => if b = 0 then a else gcdLoop fuel b (a % b)

/-- `gcd_fn` (R71). The remainder strictly decreases, so there are at most `b` rounds. -/
def gcdFn (a b : Nat) : Nat := gcdLoop (b + 1) a b

/-- The iterative extended Euclid of R72: the final `(old_r, old_s)`. The coefficients are integers. -/
def egcdLoop (fuel oldR r : Nat) (oldS s : Int) : Nat × Int :=
  match fuel with
  | 0 => (oldR, oldS)
  | fuel + 1 =>
    if r = 0 then (oldR, oldS)
    else egcdLoop fuel r (oldR - (oldR / r) * r) s (oldS - ((oldR / r : Nat) : Int) * s)

/-- `modinv_fn` (R72): a zero modulus is tested before the gcd (D14); the result is the canonical residue in
`[0, m)` (D15, 90_conflicts.md C3). -/
def modinvFn (e m : Nat) : Except Failure Nat :=
  if m = 0 then .error .invalidOperand
  else
    match egcdLoop (m + 1) e m 1 0 with
    | (oldR, oldS) => if oldR ≠ 1 then .error .notInvertible else .ok (oldS % (m : Int)).toNat

/-- The right-to-left square-and-multiply loop of R73, from `result`, base `b`, exponent `k`. -/
def powLoop (fuel result b k m : Nat) : Nat :=
  match fuel with
  | 0 => result
  | fuel + 1 =>
    if k > 0 then
      powLoop fuel (if k % 2 = 1 then (result * b) % m else result) ((b * b) % m) (k / 2) m
    else result

/-- `modpow_fn` (R73). The exponent is halved each round, so there are at most `k` rounds. -/
def modpowFn (b k m : Nat) : Except Failure Nat :=
  if m = 0 then .error .invalidOperand
  else if m = 1 then .ok 0
  else .ok (powLoop (k + 1) 1 (b % m) k m)

/-- `totient_fn` (R80): the bare product `(p-1)*(q-1)`, strictly above `PHI_MIN`; neither `p` nor `q` is tested
for primality, nor `p ≠ q`. -/
def totientFn (p q : Nat) : Except Failure Nat :=
  if p = 0 ∨ q = 0 then .error .invalidKeyMaterial
  else if (p - 1) * (q - 1) ≤ Config.phiMin then .error .invalidKeyMaterial
  else .ok ((p - 1) * (q - 1))

/-- The scan of R81: the first `e`, `e+1`, …, `last` that is coprime to `phi`. -/
def scanLoop (fuel e last phi : Nat) : Except Failure Nat :=
  match fuel with
  | 0 => .error .searchExhausted
  | fuel + 1 =>
    if e ≤ last then
      if gcdFn e phi = 1 then .ok e else scanLoop fuel (e + 1) last phi
    else .error .searchExhausted

/-- `pubexp_fn` (R81): the start `r` is the host's draw and is range-checked, never mapped into range (D9, D10);
the last candidate is `n - 2`, inclusive (D11, 90_conflicts.md C1); no wrap-around (D12). -/
def pubexpFn (n phi r : Nat) : Except Failure Nat :=
  if r < 1 ∨ r > n / 2 then .error .invalidOperand
  else scanLoop n r (n - 2) phi

/-- The trial division of R90: the first `i`, `i+1`, …, `last` that divides `n`, with its cofactor. -/
def trialLoop (fuel i last n : Nat) : Except Failure (Nat × Nat) :=
  match fuel with
  | 0 => .error .unfactorableModulus
  | fuel + 1 =>
    if i ≤ last then
      if n % i = 0 then .ok (i, n / i) else trialLoop fuel (i + 1) last n
    else .error .unfactorableModulus

/-- `factor_fn` (R90): the range `2 .. n-2`, inclusive (D20), empty for `n < 4`. -/
def factorFn (n : Nat) : Except Failure (Nat × Nat) :=
  if n < 4 then .error .unfactorableModulus
  else trialLoop n 2 (n - 2) n

/-- An exact value that must be written to a `W`-bit register: `Overflow` when it is `≥ 2^W` (R7). -/
def checkFits (w : Width) (v : Nat) : Except Failure Nat :=
  if w.fits v then .ok v else .error .overflow

end Sys2Proof.Machine
end

