-- ==== Sys2Proof/Machine/Flags.lean ====
section
/-! DEFINITION. The status flags, which are the block's only condition flags (10_state.md R14): the error codes,
what `STATUS` and `CTRL` read, and the `irq` level. No arithmetic sets a carry, zero, sign or overflow flag (R14). -/

namespace Sys2Proof.Machine

/-- The error code of a failure (R101). -/
def Failure.code (f : Failure) : ErrCode :=
  match f with
  | .invalidKeyMaterial => 1
  | .searchExhausted => 2
  | .unfactorableModulus => 3
  | .invalidInputType => 4
  | .notInvertible => 5
  | .invalidOperand => 6
  | .overflow => 7
  | .illegalCommand => 8
  | .aborted => 9

/-- What `STATUS` reads: `BUSY + 2*DONE + 4*FAIL + 16*ERRCODE`; the reserved bits read 0 (R14, R31). -/
def State.statusValue (s : State) : Nat :=
  s.busy.toNat + 2 * s.done.toNat + 4 * s.fail.toNat + 16 * s.errCode.toNat

/-- What `CTRL` reads: `IE` in bit 0, every other bit 0 (R15, R31). -/
def State.ctrlValue (s : State) : Nat := s.ie.toNat

/-- The interrupt output, a level: `irq = DONE and IE` (R24, R107). It is no state. -/
def State.irq (s : State) : Bool := s.done && s.ie

end Sys2Proof.Machine
end

