-- ==== Sys2Proof/Machine/Operands.lean ====
section
/-! DEFINITION. How a transaction names what it acts on: the register addresses of 10_state.md R10 (the block's
only addressing mode, R47), the fields of the write data (R15, R50), and the operand registers (R11). -/

namespace Sys2Proof.Machine

/-- The address of a register (R10). -/
def regAddr (r : Reg) : RegAddr :=
  match r with
  | .cmd => 0x0
  | .status => 0x1
  | .ctrl => 0x2
  | .width => 0x3
  | .opa => 0x4
  | .opb => 0x5
  | .opm => 0x6
  | .opr => 0x7
  | .res0 => 0x8
  | .res1 => 0x9
  | .res2 => 0xA
  | .res3 => 0xB

/-- The register an address names; none at the reserved addresses `0xC` to `0xF` (R10, R17). -/
def regAt (addr : RegAddr) : Option Reg :=
  match addr.toNat with
  | 0 => some .cmd
  | 1 => some .status
  | 2 => some .ctrl
  | 3 => some .width
  | 4 => some .opa
  | 5 => some .opb
  | 6 => some .opm
  | 7 => some .opr
  | 8 => some .res0
  | 9 => some .res1
  | 10 => some .res2
  | 11 => some .res3
  | _ => none

/-- The command word of a `CMD` write: `v[7:0]`; the bits above are ignored (R34, R50). -/
def commandWordOf (v : Nat) : CommandWord := BitVec.ofNat 8 v

/-- `v[0]` of a `CTRL` write, the new `IE` (R15, R36). -/
def ieBitOf (v : Nat) : Bool := v.testBit 0

/-- `v[1]` of a `CTRL` write, `ABORT` (R15, R36); the bits above are ignored. -/
def abortBitOf (v : Nat) : Bool := v.testBit 1

/-- The four operand registers (R11), which the host alone writes. -/
def isOperandReg (r : Reg) : Bool :=
  match r with
  | .opa => true
  | .opb => true
  | .opm => true
  | .opr => true
  | .cmd => false
  | .status => false
  | .ctrl => false
  | .width => false
  | .res0 => false
  | .res1 => false
  | .res2 => false
  | .res3 => false

/-- `x[r] <- v` for an operand register `r` (R33); no other register is one (R11). -/
def setOperand (r : Reg) (v : Nat) (s : State) : State :=
  match r with
  | .opa => { s with opa := v }
  | .opb => { s with opb := v }
  | .opm => { s with opm := v }
  | .opr => { s with opr := v }
  | .cmd => s
  | .status => s
  | .ctrl => s
  | .width => s
  | .res0 => s
  | .res1 => s
  | .res2 => s
  | .res3 => s

end Sys2Proof.Machine
end

