-- ==== Sys2Proof/Machine/Ops.lean ====
section
/-! DEFINITION. The shared operations: accepting a command (R60), its successful completion (R62), its failure
(R104, the block's only exception entry: nothing is saved, no mode changes, control goes nowhere), abort (R97),
`CLEAR` (R96), reset (R120), and the host's register reads and writes (R31 to R38). There is no return from a
failure (R110): the next accepted command, `CLEAR` or reset takes it away. -/

namespace Sys2Proof.Machine

/-- Accept the command word `c` (R60). -/
def accept (c : CommandWord) (s : State) : State :=
  { s with
    curCmd := c
    busy := true
    done := false
    fail := false
    errCode := 0
    res0 := 0
    res1 := 0
    res2 := 0
    res3 := 0 }

/-- Successful completion (R62): the four results and the status in one step; `FAIL` and `ERRCODE` are not
written. -/
def succeed (r : Results) (s : State) : State :=
  { s with
    res0 := r.r0
    res1 := r.r1
    res2 := r.r2
    res3 := r.r3
    busy := false
    done := true }

/-- Failed completion, the block's exception entry (R104): the status takes the code; the result registers are
not written and stay 0 from the accept step; nothing is saved. -/
def raise (f : Failure) (s : State) : State :=
  { s with
    busy := false
    done := true
    fail := true
    errCode := f.code }

/-- Commit an outcome: R62 for `Ok`, R104 for `Err`. -/
def finish (outcome : Except Failure Results) (s : State) : Host.Outcome State Fault Refusal :=
  match outcome with
  | .ok r => .next (succeed r s)
  | .error f => .next (raise f s)

/-- What an accepted `CLEAR` does at once (R96): `BUSY` is not written. -/
def clearResults (s : State) : State :=
  { s with
    curCmd := 0x0F
    done := false
    fail := false
    errCode := 0
    res0 := 0
    res1 := 0
    res2 := 0
    res3 := 0 }

/-- The reset step: the whole architectural state becomes the reset state (R120, R23); a running command is
discarded (R121). What the host presents later is not the block's to clear (log entry 10). -/
def resetBlock (s : State) : State := { State.reset with schedule := s.schedule }

/-- A write to `CTRL` (R36): `IE <- v[0]`; then, if `v[1] = 1` and `BUSY = 1`, the running command ends with
`Aborted` in the same step (R97). With `BUSY = 0` the abort bit does nothing and is not remembered. -/
def writeCtrl (v : Nat) (s : State) : State :=
  if abortBitOf v && s.busy then
    raise .aborted { s with ie := ieBitOf v }
  else
    { s with ie := ieBitOf v }

/-- A write to an operand register: refused while `BUSY = 1`, the value lost (R33, R35, R123). -/
def writeOperand (r : Reg) (v : Nat) (s : State) : State :=
  if s.busy then s else setOperand r v s

/-- The value a read of a register returns (R31); it is 0 at a reserved address (R37). Narrow registers are
zero-extended (R10). -/
def readValue (w : Width) (r : Option Reg) (s : State) : Nat :=
  match r with
  | some .cmd => s.curCmd.toNat
  | some .status => s.statusValue
  | some .ctrl => s.ctrlValue
  | some .width => w.register
  | some .opa => s.opa
  | some .opb => s.opb
  | some .opm => s.opm
  | some .opr => s.opr
  | some .res0 => s.res0
  | some .res1 => s.res1
  | some .res2 => s.res2
  | some .res3 => s.res3
  | none => 0

/-- Whether a write answers `rsp_error = 1` (R32, R106): always at a read-only register or a reserved address,
while `BUSY = 1` at `CMD` and the operand registers, never at `CTRL`. -/
def writeError (r : Option Reg) (s : State) : Bool :=
  match r with
  | some .cmd => s.busy
  | some .status => true
  | some .ctrl => false
  | some .width => true
  | some .opa => s.busy
  | some .opb => s.busy
  | some .opm => s.busy
  | some .opr => s.busy
  | some .res0 => true
  | some .res1 => true
  | some .res2 => true
  | some .res3 => true
  | none => true

/-- The port's response signals `rsp_rdata` and `rsp_error` (R30). -/
structure Response where
  rdata : Nat
  error : Bool
deriving DecidableEq, Repr

/-- The response to a transaction presented in this state (R31, R32, R106): read data is 0 on a write (R30); a
read errs only at a reserved address (R37). -/
def portResponse (w : Width) (req : Request) (s : State) : Response :=
  match req with
  | .read addr => { rdata := readValue w (regAt addr) s, error := (regAt addr).isNone }
  | .write addr _ => { rdata := 0, error := writeError (regAt addr) s }

end Sys2Proof.Machine
end

