-- ==== Sys2Proof/Machine/Cracker.lean ====
section
/-! DEFINITION. `FACTOR`, `CRACK` (43_cracker.md). -/

namespace Sys2Proof.Machine

/-- `Exec(FACTOR)` (R91). -/
def factorOutcome (n : Nat) : Except Failure Results := do
  let (p, q) ← factorFn n
  return ⟨p, q, 0, 0⟩

/-- `Exec(CRACK)` (R92): factor, then the bare totient product (no threshold test, D19), then the inverse. -/
def crackOutcome (e n : Nat) : Except Failure Results := do
  let (p, q) ← factorFn n
  let phi := (p - 1) * (q - 1)
  let d ← modinvFn e phi
  return ⟨p, q, d, phi⟩

/-- The completion of `FACTOR` (R91). -/
def execFactor (s : State) : Host.Outcome State Fault Refusal :=
  finish (factorOutcome s.opm) s

/-- The completion of `CRACK` (R92). -/
def execCrack (s : State) : Host.Outcome State Fault Refusal :=
  finish (crackOutcome s.opa s.opm) s

end Sys2Proof.Machine
end

