-- ==== Sys2Proof/Machine/KeyGeneration.lean ====
section
/-! DEFINITION. `TOTIENT`, `PUBEXP`, `KEYGEN` (42_key_generation.md). The tests run in the order of 60_exceptions.md R103;
the first failure leaves the sequence and nothing after it runs. -/

namespace Sys2Proof.Machine

/-- `Exec(TOTIENT)` (R82). It does not form `n`. -/
def totientOutcome (w : Width) (p q : Nat) : Except Failure Results := do
  let phi ← totientFn p q
  let phi ← checkFits w phi
  return ⟨0, 0, 0, phi⟩

/-- `Exec(PUBEXP)` (R83). -/
def pubexpOutcome (w : Width) (p q r : Nat) : Except Failure Results := do
  let phi ← totientFn p q
  let n ← checkFits w (p * q)
  let e ← pubexpFn n phi r
  return ⟨e, n, 0, phi⟩

/-- `Exec(KEYGEN)` (R84): totient, then public exponent, then private exponent. -/
def keygenOutcome (w : Width) (p q r : Nat) : Except Failure Results := do
  let phi ← totientFn p q
  let n ← checkFits w (p * q)
  let e ← pubexpFn n phi r
  let d ← modinvFn e phi
  return ⟨e, n, d, phi⟩

/-- The completion of `TOTIENT` (R82). -/
def execTotient (s : State) : Host.Outcome State Fault Refusal :=
  finish (totientOutcome Config.width s.opa s.opb) s

/-- The completion of `PUBEXP` (R83). -/
def execPubexp (s : State) : Host.Outcome State Fault Refusal :=
  finish (pubexpOutcome Config.width s.opa s.opb s.opr) s

/-- The completion of `KEYGEN` (R84). -/
def execKeygen (s : State) : Host.Outcome State Fault Refusal :=
  finish (keygenOutcome Config.width s.opa s.opb s.opr) s

end Sys2Proof.Machine
end

