-- ==== Sys2Proof/Machine/ModularArithmetic.lean ====
section
/-! DEFINITION. `GCD`, `MODINV`, `MODPOW` (41_modular_arithmetic.md). Each command has its arm of `Exec` (R61), a pure
function of the operands the command reads (R65), and its meaning: the completion step that commits the arm's
outcome (R62, R104; log entry 7). -/

namespace Sys2Proof.Machine

/-- `Exec(GCD)` (R74). -/
def gcdOutcome (a b : Nat) : Except Failure Results := .ok ⟨gcdFn a b, 0, 0, 0⟩

/-- `Exec(MODINV)` (R75). -/
def modinvOutcome (e m : Nat) : Except Failure Results := do
  let d ← modinvFn e m
  return ⟨d, 0, 0, 0⟩

/-- `Exec(MODPOW)` (R76). -/
def modpowOutcome (b k m : Nat) : Except Failure Results := do
  let v ← modpowFn b k m
  return ⟨v, 0, 0, 0⟩

/-- The completion of `GCD` (R74). -/
def execGcd (s : State) : Host.Outcome State Fault Refusal :=
  finish (gcdOutcome s.opa s.opb) s

/-- The completion of `MODINV` (R75). -/
def execModinv (s : State) : Host.Outcome State Fault Refusal :=
  finish (modinvOutcome s.opa s.opm) s

/-- The completion of `MODPOW` (R76). -/
def execModpow (s : State) : Host.Outcome State Fault Refusal :=
  finish (modpowOutcome s.opa s.opb s.opm) s

end Sys2Proof.Machine
end

