-- ==== Sys2Proof/Machine/System.lean ====
section
/-! DEFINITION. `CLEAR` (44_system_commands.md R96). Abort and the interrupt enable are `CTRL` writes (`writeCtrl` in
`Machine/Ops.lean`, R97, R99), and an illegal word's completion is in `Machine/Fetch.lean` (R98). -/

namespace Sys2Proof.Machine

/-- `CLEAR` acts in the step of its own `CMD` write and has no `RUN` phase (R96). With `BUSY = 1` the write is
refused like any `CMD` write and nothing changes (R34). -/
def execClear (s : State) : Host.Outcome State Fault Refusal :=
  if s.busy then .next s else .next (clearResults s)

end Sys2Proof.Machine
end

