-- ==== Sys2Proof/Machine/Dispatch.lean ====
section
/-! DEFINITION. The dispatch of 40_command_lifecycle.md R61, one arm per command; `CLEAR` has its own rule (R96). -/

namespace Sys2Proof.Machine

def exec (i : Instr) (s : State) : Host.Outcome State Fault Refusal :=
  match i with
  | .gcd => Sys2Proof.Machine.execGcd s
  | .modinv => Sys2Proof.Machine.execModinv s
  | .modpow => Sys2Proof.Machine.execModpow s
  | .totient => Sys2Proof.Machine.execTotient s
  | .pubexp => Sys2Proof.Machine.execPubexp s
  | .keygen => Sys2Proof.Machine.execKeygen s
  | .factor => Sys2Proof.Machine.execFactor s
  | .crack => Sys2Proof.Machine.execCrack s
  | .clear => Sys2Proof.Machine.execClear s

end Sys2Proof.Machine
end

