-- ==== Sys2Proof/Decode.lean ====
section
/-! DEFINITION. The decoder, from the opcode map of 30_encoding.md R51, total on the 256 command words (R57) and
rejecting the other 247 by name (R53); and the encoder, from the same map. -/

namespace Sys2Proof

/-- Why a word is no command. -/
inductive DecodeError where
  /-- the word is one of the 247 illegal words (R53) -/
  | illegalCommand (word : CommandWord)
  /-- there is no word to decode -/
  | noWord
deriving DecidableEq, Repr

/-- One row of the opcode map (R51): a word `c` selects the row when `c and mask = bits`. -/
structure OpcodeRow where
  bits : CommandWord
  mask : CommandWord
  instr : Instr
deriving DecidableEq, Repr

/-- The opcode map (R51). -/
def opcodeRows : List OpcodeRow :=
  [⟨0x01, 0xFF, .gcd⟩, ⟨0x02, 0xFF, .modinv⟩, ⟨0x03, 0xFF, .modpow⟩,
   ⟨0x04, 0xFF, .totient⟩, ⟨0x05, 0xFF, .pubexp⟩, ⟨0x06, 0xFF, .keygen⟩,
   ⟨0x07, 0xFF, .factor⟩, ⟨0x08, 0xFF, .crack⟩, ⟨0x0F, 0xFF, .clear⟩]

/-- The row a word selects (R51). -/
def OpcodeRow.selectedBy (c : CommandWord) (row : OpcodeRow) : Bool := c &&& row.mask == row.bits

/-- Decoding depends on nothing but the word (R57). -/
def decodeWord (c : CommandWord) : Except DecodeError Instr :=
  match opcodeRows.find? (OpcodeRow.selectedBy c) with
  | some row => .ok row.instr
  | none => .error (.illegalCommand c)

/-- Decoding a sequence of words: every command is one word, so no length has to be found (R54). -/
def decode (words : List CommandWord) : Except DecodeError (Instr × List CommandWord) :=
  match words with
  | [] => .error .noWord
  | c :: rest =>
    match decodeWord c with
    | .ok i => .ok (i, rest)
    | .error e => .error e

/-- The command word of a command (R51): `OPCODE` in bits 3..0, bits 7..4 zero (R50). -/
def encodeWord (i : Instr) : CommandWord :=
  match i with
  | .gcd => 0x01
  | .modinv => 0x02
  | .modpow => 0x03
  | .totient => 0x04
  | .pubexp => 0x05
  | .keygen => 0x06
  | .factor => 0x07
  | .crack => 0x08
  | .clear => 0x0F

/-- The words of a command: one (R50). -/
def encode (i : Instr) : List CommandWord := [encodeWord i]

/-- The word that the `nbits` low bits of `w` spell, bits above them zero. -/
def tableWord (nbits w : Nat) : CommandWord := BitVec.ofNat 8 (w % 2 ^ nbits)

/-- What the decoder reads from a word numbered as spec/opcode_table.json numbers it. -/
def decodeTableWord (nbits w : Nat) : Option Instr :=
  match decode [tableWord nbits w] with
  | .ok (i, _) => some i
  | .error _ => none

end Sys2Proof
end

