-- ==== Sys2Proof/Machine/Fetch.lean ====
section
/-! DEFINITION. What the next step is: the event at the head of the schedule says whose step it is, and, where that
step runs a command, which command the command word decodes to. `Machine/Step.lean` runs what this file finds. -/

namespace Sys2Proof.Machine

/-- What one step does. -/
inductive Action where
  /-- the step is this command's own step, on this state -/
  | run (i : Instr) (s : State)
  /-- the step is the port's or the sequencer's, and leaves this state -/
  | become (s : State)
deriving DecidableEq, Repr

/-- The core's completion step, enabled when `BUSY = 1` (R64): the arm of `Exec` that `CUR_CMD` selects (R61); an
illegal word completes with `IllegalCommand` (R98). -/
def completion (s : State) : Action :=
  match decodeWord s.curCmd with
  | .ok i => .run i s
  | .error _ => .become (raise .illegalCommand s)

/-- A write to `CMD` (R34): `CLEAR` runs at once (R96); with `BUSY = 0` any other word, legal or not, is accepted
(R60, R98); with `BUSY = 1` the write is refused. -/
def writeCmd (v : Nat) (s : State) : Action :=
  match decodeWord (commandWordOf v) with
  | .ok .clear => .run .clear s
  | _ => if s.busy then .become s else .become (accept (commandWordOf v) s)

/-- A host write (R32): `CMD` (R34), `CTRL` (R36), an operand register (R33, R35); a write to a read-only register
or a reserved address changes nothing (R36, R37). -/
def hostWrite (r : Option Reg) (v : Nat) (s : State) : Action :=
  match r with
  | some .cmd => writeCmd v s
  | some .status => .become s
  | some .ctrl => .become (writeCtrl v s)
  | some .width => .become s
  | some .opa => .become (writeOperand .opa v s)
  | some .opb => .become (writeOperand .opb v s)
  | some .opm => .become (writeOperand .opm v s)
  | some .opr => .become (writeOperand .opr v s)
  | some .res0 => .become s
  | some .res1 => .become s
  | some .res2 => .become s
  | some .res3 => .become s
  | none => .become s

/-- A host transaction (R31, R32); a read never changes any state (R31). -/
def hostTransaction (req : Request) (s : State) : Action :=
  match req with
  | .read _ => .become s
  | .write addr v => hostWrite (regAt addr) v s

/-- The state once the head event is taken off the schedule. -/
def State.withSchedule (s : State) (rest : List Event) : State := { s with schedule := rest }

/-- The next step. A completion marked in the schedule happens only where it is enabled; one that is still owed
when the schedule is empty is taken then (R64, R129; log entry 3); a `WAIT` lets the core go on until `BUSY = 0`
(R55, log entry 5); an idle block waits (R112). -/
def nextAction (s : State) : Action :=
  match s.schedule with
  | [] => if s.busy then completion s else .become s
  | .transact req :: rest => hostTransaction req (s.withSchedule rest)
  | .complete :: rest =>
    if s.busy then completion (s.withSchedule rest) else .become (s.withSchedule rest)
  | .wait :: rest => if s.busy then completion s else .become (s.withSchedule rest)
  | .quiet :: rest => .become (s.withSchedule rest)
  | .reset _ :: rest => .become (resetBlock (s.withSchedule rest))

/-- The port's response in the step about to be taken, if a transaction is presented: R31, R32; a transaction
presented while `rst_n = 0` is ignored and answers 0 without error (R120). A `WAIT` that ends is one read of
`STATUS` (R55). Outputs are no state (R24, log entry 11). -/
def stepResponse (s : State) : Option Response :=
  match s.schedule with
  | .transact req :: _ => some (portResponse Config.width req s)
  | .reset (some _) :: _ => some { rdata := 0, error := false }
  | .wait :: _ => if s.busy then none else some (portResponse Config.width (.read (regAddr .status)) s)
  | .reset none :: _ => none
  | .complete :: _ => none
  | .quiet :: _ => none
  | [] => none

/-- The state in which the word `c` is the command whose step comes next (log entry 8): for `CLEAR`, its `CMD`
write is presented to the idle block (R96); for any other word, that write has been accepted (R60) and the
completion comes next. -/
def loadCommand (c : CommandWord) (s : State) : State :=
  match decodeWord c with
  | .ok .clear =>
    { s with
      busy := false
      schedule := .transact (.write (regAddr .cmd) c.toNat) :: s.schedule }
  | _ => accept c { s with schedule := .complete :: s.schedule }

end Sys2Proof.Machine
end

