-- ==== Sys2Proof/Machine/Step.lean ====
section
/-! DEFINITION. One step of the machine. -/

namespace Sys2Proof.Machine

/-- Each step is one atomic step of the host, the core or reset (R109): it runs the command whose step it is, or
leaves the state the port or the sequencer gives. -/
def step (s : State) : Host.Outcome State Fault Refusal :=
  match nextAction s with
  | .run i t => exec i t
  | .become t => .next t

/-- `s` with the command word that the `nbits` low bits of `w` spell as the command the very next step runs
(`loadCommand`, log entry 8). -/
def State.withFetchWord (s : State) (nbits w : Nat) : State := loadCommand (tableWord nbits w) s

end Sys2Proof.Machine
end

