-- ==== Sys2Proof/Machine/HostNotation.lean ====
section
/-! DEFINITION. How a host writes what it presents: the port's input signals (20_memory.md R30), the lines of a host
program (30_encoding.md R55), the pseudo-instructions (R56), and the host's cipher loops (41_modular_arithmetic.md R77).
Each becomes a piece of a schedule. -/

namespace Sys2Proof.Machine

/-- The input signals of one clock cycle (R30). -/
structure PortSignals where
  rstN : Bool
  reqValid : Bool
  reqWrite : Bool
  reqAddr : RegAddr
  reqWdata : Nat
deriving DecidableEq, Repr

/-- The transaction presented in a cycle, if any (R30): the write data is ignored on a read. -/
def PortSignals.request (p : PortSignals) : Option Request :=
  if p.reqValid then
    if p.reqWrite then some (.write p.reqAddr p.reqWdata) else some (.read p.reqAddr)
  else none

/-- The host's or reset's step in a cycle: reset takes precedence (R120). Where the core's own completion falls is
no input; it is placed in the schedule by `Event.complete`. -/
def PortSignals.event (p : PortSignals) : Event :=
  if p.rstN then
    match p.request with
    | some req => .transact req
    | none => .quiet
  else .reset p.request

/-- One line of a host program (R55). A register is written by its address; `regAddr` gives a name's address. -/
inductive Line where
  /-- `WR <reg>, <value>` -/
  | wr (addr : RegAddr) (value : Nat)
  /-- `RD <reg>` -/
  | rd (addr : RegAddr)
  /-- `<MNEMONIC>` with no operands: `WR CMD, <command word>` -/
  | command (i : Instr)
  /-- `WAIT` -/
  | wait
deriving DecidableEq, Repr

/-- The line as an event (R55, third column). -/
def Line.event (l : Line) : Event :=
  match l with
  | .wr addr value => .transact (.write addr value)
  | .rd addr => .transact (.read addr)
  | .command i => .transact (.write (regAddr .cmd) (encodeWord i).toNat)
  | .wait => .wait

/-- The schedule a host program presents, one line after the other (R44). -/
def lineEvents (lines : List Line) : List Event := lines.map Line.event

/-- The pseudo-instructions of R56. `abort` carries the value `v` its `RD CTRL` gave (log entry 14). -/
inductive Pseudo where
  | gcd (a b : Nat)
  | modinv (e m : Nat)
  | privexp (e phi : Nat)
  | modpow (b k m : Nat)
  | encsym (code e n : Nat)
  | decsym (c d n : Nat)
  | totient (p q : Nat)
  | pubexp (p q r : Nat)
  | keygen (p q r : Nat)
  | factor (n : Nat)
  | crack (e n : Nat)
  | abort (v : Nat)
  | irqon
  | irqoff
deriving DecidableEq, Repr

/-- `WR OPA, v` and its like: a write to a register by name. -/
def wrReg (r : Reg) (v : Nat) : Line := .wr (regAddr r) v

/-- The lines of `MODINV e, m`, shared with `PRIVEXP` (R56). -/
def modinvLines (e m : Nat) : List Line := [wrReg .opa e, wrReg .opm m, .command .modinv, .wait]

/-- The lines of `MODPOW b, k, m`, shared with `ENCSYM` and `DECSYM` (R56). -/
def modpowLines (b k m : Nat) : List Line :=
  [wrReg .opa b, wrReg .opb k, wrReg .opm m, .command .modpow, .wait]

/-- The expansion of a pseudo-instruction (R56). -/
def Pseudo.lines (p : Pseudo) : List Line :=
  match p with
  | .gcd a b => [wrReg .opa a, wrReg .opb b, .command .gcd, .wait]
  | .modinv e m => modinvLines e m
  | .privexp e phi => modinvLines e phi
  | .modpow b k m => modpowLines b k m
  | .encsym code e n => modpowLines code e n
  | .decsym c d n => modpowLines c d n
  | .totient p q => [wrReg .opa p, wrReg .opb q, .command .totient, .wait]
  | .pubexp p q r => [wrReg .opa p, wrReg .opb q, wrReg .opr r, .command .pubexp, .wait]
  | .keygen p q r => [wrReg .opa p, wrReg .opb q, wrReg .opr r, .command .keygen, .wait]
  | .factor n => [wrReg .opm n, .command .factor, .wait]
  | .crack e n => [wrReg .opa e, wrReg .opm n, .command .crack, .wait]
  | .abort v => [.rd (regAddr .ctrl), wrReg .ctrl (v % 2 + 2)]
  | .irqon => [wrReg .ctrl 1]
  | .irqoff => [wrReg .ctrl 0]

/-- Encrypting a sequence: one `ENCSYM` for each code, in order, and its result collected (R77). -/
def encryptLines (codes : List Nat) (e n : Nat) : List Line :=
  codes.flatMap fun code => (Pseudo.encsym code e n).lines ++ [.rd (regAddr .res0)]

/-- Decrypting a sequence: one `DECSYM` for each symbol, in order (R77). -/
def decryptLines (cipher : List Nat) (d n : Nat) : List Line :=
  cipher.flatMap fun c => (Pseudo.decsym c d n).lines ++ [.rd (regAddr .res0)]

end Sys2Proof.Machine
end

