-- ==== Sys2Proof/WellFormed.lean ====
section
/-! DEFINITION. Which terms of the syntax stand for something the hardware can meet. A command has no operand
field, so every command is well formed (R50, R52); the data of a write must be a value that `W` data wires can
carry (R30). -/

namespace Sys2Proof

/-- A command word carries no register number and no immediate (R50, R52): nothing can be ill formed. -/
def Instr.wf (i : Instr) : Bool :=
  match i with
  | .gcd => true
  | .modinv => true
  | .modpow => true
  | .totient => true
  | .pubexp => true
  | .keygen => true
  | .factor => true
  | .crack => true
  | .clear => true

/-- `req_wdata` has width `W` (R30); every 4-bit address is well formed (R40). -/
def Request.wf (w : Width) (r : Request) : Bool :=
  match r with
  | .read _ => true
  | .write _ data => w.fits data

/-- Every transaction an event presents is well formed. -/
def Event.wf (w : Width) (e : Event) : Bool :=
  match e with
  | .transact r => r.wf w
  | .complete => true
  | .wait => true
  | .quiet => true
  | .reset none => true
  | .reset (some r) => r.wf w

end Sys2Proof
end

