-- ==== Sys2Proof/Safety.lean ====
section
/-! DEFINITION. What counts as a legal state (10_state.md R26), and the words claims about a command's end are stated
in: the two ways a command completes (R62, R104) and the block's `Exec` as one function of the command word (R61). -/

namespace Sys2Proof.Machine

/-- `s` after a successful completion with results `r0` to `r3` (R62), and nothing else changed. -/
def State.completedOk (s : State) (r0 r1 r2 r3 : Nat) : State :=
  { s with res0 := r0, res1 := r1, res2 := r2, res3 := r3, busy := false, done := true }

/-- `s` after a failed completion with the error code `code` (R104), and nothing else changed. -/
def State.completedErr (s : State) (code : ErrCode) : State :=
  { s with busy := false, done := true, fail := true, errCode := code }

/-- All four result registers read 0 (R105). -/
def State.resultsZero (s : State) : Prop := s.res0 = 0 ∧ s.res1 = 0 ∧ s.res2 = 0 ∧ s.res3 = 0

/-- The four operand registers of `t` are those of `s` (R11). -/
def State.sameOperands (s t : State) : Prop :=
  t.opa = s.opa ∧ t.opb = s.opb ∧ t.opm = s.opm ∧ t.opr = s.opr

/-- Everything but the schedule is the same: the block did not change (R38). -/
def State.sameBlock (s t : State) : Prop := t = { s with schedule := t.schedule }

/-- Every operand and result register holds a value of its width (R11, R12). -/
structure State.InRange (w : Width) (s : State) : Prop where
  opa : w.fits s.opa = true
  opb : w.fits s.opb = true
  opm : w.fits s.opm = true
  opr : w.fits s.opr = true
  res0 : w.fits s.res0 = true
  res1 : w.fits s.res1 = true
  res2 : w.fits s.res2 = true
  res3 : w.fits s.res3 = true

/-- The invariants of R26, items 1 to 4 and 6, with the ranges of R25 and the `CUR_CMD` clause of R61. The premise
on the schedule says that the host drives `W` data wires (R30, log entry 6). -/
structure State.Inv (w : Width) (s : State) : Prop where
  /-- R26 item 1 -/
  busy_clear : s.busy = true → s.done = false ∧ s.fail = false ∧ s.errCode = 0 ∧ s.resultsZero
  /-- R26 item 2 -/
  fail_done : s.fail = true → s.done = true ∧ s.errCode ≠ 0 ∧ s.resultsZero
  /-- R26 item 3 -/
  ok_code : s.fail = false → s.errCode = 0
  /-- R26 item 4 -/
  done_idle : s.done = true → s.busy = false
  /-- R26 item 6 -/
  code_known : s.errCode ∈ [0, 1, 2, 3, 5, 6, 7, 8, (9 : ErrCode)]
  /-- R61: `CUR_CMD = 0x0F` never occurs with `phase = RUN` -/
  busy_not_clear : s.busy = true → s.curCmd ≠ 0x0F
  /-- R25: the registers' ranges -/
  inRange : s.InRange w
  /-- R30: the data still to be presented has width `W` -/
  schedule_wf : ∀ e ∈ s.schedule, e.wf w = true

/-- `Exec(c, a, b, m, r)` of R61, for every command word. `CLEAR` has no `RUN` phase, so its arm is never asked for
(R60); it is given the results of R12's table. -/
def execOutcome (w : Width) (c : CommandWord) (a b m r : Nat) : Except Failure Results :=
  match decodeWord c with
  | .ok .gcd => gcdOutcome a b
  | .ok .modinv => modinvOutcome a m
  | .ok .modpow => modpowOutcome a b m
  | .ok .totient => totientOutcome w a b
  | .ok .pubexp => pubexpOutcome w a b r
  | .ok .keygen => keygenOutcome w a b r
  | .ok .factor => factorOutcome m
  | .ok .crack => crackOutcome a m
  | .ok .clear => .ok ⟨0, 0, 0, 0⟩
  | .error _ => .error .illegalCommand

/-- `s` after the completion of the command in `CUR_CMD`, success (R62) or failure (R104). -/
def State.afterCompletion (w : Width) (s : State) : State :=
  match execOutcome w s.curCmd s.opa s.opb s.opm s.opr with
  | .ok r => s.completedOk r.r0 r.r1 r.r2 r.r3
  | .error f => s.completedErr f.code

/-- R26 item 5: with `DONE = 1` and `FAIL = 0` the result registers hold exactly the success outcome of `CUR_CMD` on
the current operand registers. -/
def State.resultsCurrent (w : Width) (s : State) : Prop :=
  s.done = true → s.fail = false →
    execOutcome w s.curCmd s.opa s.opb s.opm s.opr = .ok ⟨s.res0, s.res1, s.res2, s.res3⟩

/-- The two states agree on the operand registers the command reads (the table of R11). -/
def sameOperandsRead (i : Instr) (s t : State) : Prop :=
  match i with
  | .gcd => s.opa = t.opa ∧ s.opb = t.opb
  | .modinv => s.opa = t.opa ∧ s.opm = t.opm
  | .modpow => s.opa = t.opa ∧ s.opb = t.opb ∧ s.opm = t.opm
  | .totient => s.opa = t.opa ∧ s.opb = t.opb
  | .pubexp => s.opa = t.opa ∧ s.opb = t.opb ∧ s.opr = t.opr
  | .keygen => s.opa = t.opa ∧ s.opb = t.opb ∧ s.opr = t.opr
  | .factor => s.opm = t.opm
  | .crack => s.opa = t.opa ∧ s.opm = t.opm
  | .clear => True

/-- Which error codes a command can report at its completion (the matrix of R102, but for `Aborted`, which the host
causes). -/
def reportableCodes (i : Instr) : List ErrCode :=
  match i with
  | .gcd => []
  | .modinv => [5, 6]
  | .modpow => [6]
  | .totient => [1, 7]
  | .pubexp => [1, 2, 6, 7]
  | .keygen => [1, 2, 6, 7]
  | .factor => [3]
  | .crack => [3, 5]
  | .clear => []

end Sys2Proof.Machine
end

