-- ==== Sys2Proof/Certificates/Slice0/Obligations.lean ====
section
/-! DEFINITION. The statements for the provers, from the spec's numbered rules. Addresses and codes are written as the
numbers of 10_state.md R10 and 60_exceptions.md R101, so that a statement says which they are. -/

open Sys2Proof Sys2Proof.Machine

/-! ## Encoding -/

/-- The nine words of R51, bit by bit, decode to their commands; the neighbours of the map do not decode (R53). -/
def Obligations.OpcodeWordsDecodeToTheirCommands : Prop :=
  decode [0b00000001#8] = .ok (.gcd, []) ∧ decode [0b00000010#8] = .ok (.modinv, []) ∧
  decode [0b00000011#8] = .ok (.modpow, []) ∧ decode [0b00000100#8] = .ok (.totient, []) ∧
  decode [0b00000101#8] = .ok (.pubexp, []) ∧ decode [0b00000110#8] = .ok (.keygen, []) ∧
  decode [0b00000111#8] = .ok (.factor, []) ∧ decode [0b00001000#8] = .ok (.crack, []) ∧
  decode [0b00001111#8] = .ok (.clear, []) ∧ decode [0b00010001#8] = .error (.illegalCommand 0x11) ∧
  decode [0b00000000#8] = .error (.illegalCommand 0x00) ∧ decode [] = .error .noWord

/-- Decoding the encoding of a well-formed command gives it back, and leaves what follows alone (R51, R54). -/
def Obligations.DecodeInvertsEncode : Prop :=
  ∀ (i : Instr) (rest : List CommandWord), i.wf = true → decode (encode i ++ rest) = .ok (i, rest)

/-- Decoding is total and exact: a word decodes to a command just when it is that command's word (R57, R51), and it is
illegal just when it is `0x00`, `0x09` to `0x0E`, or has a bit of 7..4 set (R53). -/
def Obligations.DecodingIsExactlyTheOpcodeMap : Prop :=
  (∀ (c : CommandWord) (i : Instr), decodeWord c = .ok i ↔ c = encodeWord i) ∧
  (∀ c : CommandWord, decodeWord c = .error (.illegalCommand c) ↔
    c.toNat = 0x00 ∨ (0x09 ≤ c.toNat ∧ c.toNat ≤ 0x0E) ∨ 0x10 ≤ c.toNat)

/-! ## A step runs the decoded command -/

/-- When `CUR_CMD` of a busy block decodes to `i`, the completion step is `exec i` (R61; enabled while `BUSY = 1`, R64).
When that step is taken is the model's choice: at a completion mark (log entry 2), with nothing left in the schedule (log
entry 3, DEDUCED), and inside a `WAIT` (log entry 5, DESIGN CHOICE). So is the case `i = .clear` on a busy block, which no
run reaches (log entry 9, DESIGN CHOICE). -/
def Obligations.StepRunsTheCommandInCurCmd : Prop :=
  ∀ (s : State) (i : Instr) (rest : List Event), s.busy = true → decodeWord s.curCmd = .ok i →
    (s.schedule = [] → step s = exec i s) ∧
    (s.schedule = .complete :: rest → step s = exec i { s with schedule := rest }) ∧
    (s.schedule = .wait :: rest → step s = exec i s)

/-- A write of `CLEAR`'s word to `CMD` runs `CLEAR` in that step (R34, R96). -/
def Obligations.StepRunsClearWhenItsWordIsWritten : Prop :=
  ∀ (s : State) (v : Nat) (rest : List Event), decodeWord (BitVec.ofNat 8 v) = .ok .clear →
    s.schedule = .transact (.write 0x0 v) :: rest → step s = exec .clear { s with schedule := rest }

/-- The word that `withFetchWord` loads is the one the very next step runs (the model's choice, log entry 8): from
any state, a run command on the state its accepted write leaves, `CLEAR` on the idle block. -/
def Obligations.LoadedCommandRunsNext : Prop :=
  (∀ (s : State) (i : Instr), i ≠ .clear →
    step (s.withFetchWord 8 (encodeWord i).toNat) =
      exec i { s with
        curCmd := encodeWord i, busy := true, done := false, fail := false, errCode := 0,
        res0 := 0, res1 := 0, res2 := 0, res3 := 0 }) ∧
  (∀ s : State, step (s.withFetchWord 8 0x0F) = exec .clear { s with busy := false })

/-! ## The commands -/

/-- `GCD` (R74): it succeeds on all operands, writes the gcd to `RES0` and 0 to the others, and changes nothing but
results, `BUSY` and `DONE`. -/
def Obligations.GcdReturnsTheGreatestCommonDivisor : Prop :=
  encodeWord .gcd = 0x01 ∧
  ∀ s : State, exec .gcd s = .next (s.completedOk (Nat.gcd s.opa s.opb) 0 0 0)

/-- `MODINV` (R75): the inverse in `[0, m)`, with the two failures in their order. -/
def Obligations.ModinvReturnsTheInverse : Prop :=
  encodeWord .modinv = 0x02 ∧
  ∀ s : State,
    (s.opm = 0 → exec .modinv s = .next (s.completedErr 6)) ∧
    (s.opm ≠ 0 → Nat.gcd s.opa s.opm ≠ 1 → exec .modinv s = .next (s.completedErr 5)) ∧
    (s.opm ≠ 0 → Nat.gcd s.opa s.opm = 1 →
      ∃ d, d < s.opm ∧ (s.opa * d) % s.opm = 1 % s.opm ∧ exec .modinv s = .next (s.completedOk d 0 0 0))

/-- `MODPOW` (R76): the exact power reduced, or `InvalidOperand` for a zero modulus. -/
def Obligations.ModpowReturnsThePower : Prop :=
  encodeWord .modpow = 0x03 ∧
  ∀ s : State,
    (s.opm = 0 → exec .modpow s = .next (s.completedErr 6)) ∧
    (s.opm ≠ 0 → exec .modpow s = .next (s.completedOk (s.opa ^ s.opb % s.opm) 0 0 0))

/-- `TOTIENT` (R82), for whatever width the block has. -/
def Obligations.TotientReturnsTheProduct : Prop :=
  encodeWord .totient = 0x04 ∧
  ∀ s : State, exec .totient s = .next (
    if s.opa = 0 ∨ s.opb = 0 ∨ (s.opa - 1) * (s.opb - 1) ≤ 127 then s.completedErr 1
    else if Config.width.fits ((s.opa - 1) * (s.opb - 1)) then
      s.completedOk 0 0 0 ((s.opa - 1) * (s.opb - 1))
    else s.completedErr 7)

/-- `PUBEXP` (R83): the four failures in their order, else the least `e` with `r ≤ e ≤ n - 2` coprime to the totient. -/
def Obligations.PubexpReturnsTheLeastCoprimeExponent : Prop :=
  encodeWord .pubexp = 0x05 ∧
  ∀ s : State,
    let phi := (s.opa - 1) * (s.opb - 1)
    let n := s.opa * s.opb
    if s.opa = 0 ∨ s.opb = 0 ∨ phi ≤ 127 then exec .pubexp s = .next (s.completedErr 1)
    else if Config.width.fits n = false then exec .pubexp s = .next (s.completedErr 7)
    else if s.opr < 1 ∨ n / 2 < s.opr then exec .pubexp s = .next (s.completedErr 6)
    else
      (∀ e, s.opr ≤ e → e ≤ n - 2 → Nat.gcd e phi = 1 → (∀ y, s.opr ≤ y → y < e → Nat.gcd y phi ≠ 1) →
        exec .pubexp s = .next (s.completedOk e n 0 phi)) ∧
      ((∀ y, s.opr ≤ y → y ≤ n - 2 → Nat.gcd y phi ≠ 1) → exec .pubexp s = .next (s.completedErr 2))

/-- `KEYGEN` (R84): the same tests in the same order, and the inverse of the exponent found; the third step never
fails. -/
def Obligations.KeygenReturnsTheKeyPair : Prop :=
  encodeWord .keygen = 0x06 ∧
  ∀ s : State,
    let phi := (s.opa - 1) * (s.opb - 1)
    let n := s.opa * s.opb
    if s.opa = 0 ∨ s.opb = 0 ∨ phi ≤ 127 then exec .keygen s = .next (s.completedErr 1)
    else if Config.width.fits n = false then exec .keygen s = .next (s.completedErr 7)
    else if s.opr < 1 ∨ n / 2 < s.opr then exec .keygen s = .next (s.completedErr 6)
    else
      (∀ e, s.opr ≤ e → e ≤ n - 2 → Nat.gcd e phi = 1 → (∀ y, s.opr ≤ y → y < e → Nat.gcd y phi ≠ 1) →
        ∃ d, d < phi ∧ (e * d) % phi = 1 ∧ exec .keygen s = .next (s.completedOk e n d phi)) ∧
      ((∀ y, s.opr ≤ y → y ≤ n - 2 → Nat.gcd y phi ≠ 1) → exec .keygen s = .next (s.completedErr 2))

/-- `FACTOR` (R91, R93): the smallest divisor above 1 and its cofactor, or `UnfactorableModulus` exactly when `n < 4` or
`n` is prime. -/
def Obligations.FactorReturnsTheSmallestDivisor : Prop :=
  encodeWord .factor = 0x07 ∧
  ∀ s : State,
    ((s.opm < 4 ∨ s.opm.Prime) → exec .factor s = .next (s.completedErr 3)) ∧
    (4 ≤ s.opm → ¬ s.opm.Prime →
      ∃ p, 2 ≤ p ∧ p ∣ s.opm ∧ (∀ y, 2 ≤ y → y < p → ¬ y ∣ s.opm) ∧ p ≤ s.opm / p ∧ p * (s.opm / p) = s.opm ∧
        exec .factor s = .next (s.completedOk p (s.opm / p) 0 0))

/-- `CRACK` (R92): factor, the bare product, the inverse; `UnfactorableModulus` before `NotInvertible`. -/
def Obligations.CrackRecoversThePrivateExponent : Prop :=
  encodeWord .crack = 0x08 ∧
  ∀ s : State,
    let p := s.opm.minFac
    let q := s.opm / p
    let phi := (p - 1) * (q - 1)
    ((s.opm < 4 ∨ s.opm.Prime) → exec .crack s = .next (s.completedErr 3)) ∧
    (4 ≤ s.opm → ¬ s.opm.Prime → Nat.gcd s.opa phi ≠ 1 → exec .crack s = .next (s.completedErr 5)) ∧
    (4 ≤ s.opm → ¬ s.opm.Prime → Nat.gcd s.opa phi = 1 →
      ∃ d, d < phi ∧ (s.opa * d) % phi = 1 % phi ∧ exec .crack s = .next (s.completedOk p q d phi))

/-- `CLEAR` (R96): at once, results and status to 0, `CUR_CMD` to `0x0F`, nothing else, in the step of its `CMD` write;
refused while busy. -/
def Obligations.ClearZeroesResultsAtOnce : Prop :=
  encodeWord .clear = 0x0F ∧
  ∀ s : State,
    (s.busy = false →
      exec .clear s = .next { s with
        curCmd := 0x0F, done := false, fail := false, errCode := 0, res0 := 0, res1 := 0, res2 := 0, res3 := 0 }) ∧
    (s.busy = true → exec .clear s = .next s) ∧
    ∀ (v : Nat) (rest : List Event), v % 256 = 0x0F → s.schedule = .transact (.write 0x0 v) :: rest →
      (s.busy = false →
        step s = .next { s with
          curCmd := 0x0F, done := false, fail := false, errCode := 0,
          res0 := 0, res1 := 0, res2 := 0, res3 := 0, schedule := rest } ∧
        stepResponse s = some { rdata := 0, error := false } ∧ ∀ t, step s = .next t → t.irq = false) ∧
      (s.busy = true →
        step s = .next { s with schedule := rest } ∧ stepResponse s = some { rdata := 0, error := true })

/-- The scan of R81 on its own: range check first, then the least coprime candidate up to `n - 2`, or
`SearchExhausted`, with no wrap-around. -/
def Obligations.PubexpScanFindsTheLeastCandidate : Prop :=
  ∀ n phi r : Nat, 4 ≤ n →
    ((r < 1 ∨ n / 2 < r) → pubexpFn n phi r = .error .invalidOperand) ∧
    (1 ≤ r → r ≤ n / 2 → ∀ e, (pubexpFn n phi r = .ok e ↔
      r ≤ e ∧ e ≤ n - 2 ∧ Nat.gcd e phi = 1 ∧ ∀ y, r ≤ y → y < e → Nat.gcd y phi ≠ 1)) ∧
    (1 ≤ r → r ≤ n / 2 → (pubexpFn n phi r = .error .searchExhausted ↔
      ∀ y, r ≤ y → y ≤ n - 2 → Nat.gcd y phi ≠ 1))

/-- At every width, `Overflow` is reported before the range of `r` is looked at, and after the totient test; it and
`InvalidKeyMaterial` exclude each other (R103). -/
def Obligations.OverflowExcludesInvalidKeyMaterial : Prop :=
  ∀ (w : Width) (p q r : Nat), w.fits p = true → w.fits q = true → w.fits (p * q) = false →
    127 < (p - 1) * (q - 1) ∧ pubexpOutcome w p q r = .error .overflow ∧ keygenOutcome w p q r = .error .overflow

/-- `w.fits` is the test `v < 2^W` of R7, for `W = 16 + k` and for an unbounded `W`. -/
def Obligations.FitsMeansBelowTwoToTheW : Prop :=
  (∀ k v : Nat, (Width.finite k).fits v = true ↔ v < 2 ^ (16 + k)) ∧ ∀ v : Nat, Width.unbounded.fits v = true

/-- `e` need not be smaller than the modulus (R72), nor the base (R73): reducing it first changes nothing but the
operand register. -/
def Obligations.OperandsMayBeReducedFirst : Prop :=
  ∀ s : State, s.opm ≠ 0 → ∃ t u : State,
    exec .modinv s = .next t ∧
    exec .modinv { s with opa := s.opa % s.opm } = .next { t with opa := s.opa % s.opm } ∧
    exec .modpow s = .next u ∧
    exec .modpow { s with opa := s.opa % s.opm } = .next { u with opa := s.opa % s.opm }

/-- The eight commands with a `RUN` phase change results and status only: not an operand register (R11), not `CUR_CMD`,
not `IE`, not what the host presents. A success does not write `FAIL` and `ERRCODE` (R62); a failure does not write a
result register (R104). -/
def Obligations.RunCommandsFrame : Prop :=
  ∀ (i : Instr) (s t : State),
    i ∈ [Instr.gcd, .modinv, .modpow, .totient, .pubexp, .keygen, .factor, .crack] → exec i s = .next t →
    t.opa = s.opa ∧ t.opb = s.opb ∧ t.opm = s.opm ∧ t.opr = s.opr ∧ t.curCmd = s.curCmd ∧ t.ie = s.ie ∧
    t.schedule = s.schedule ∧ t.busy = false ∧ t.done = true ∧
    ((t.fail = s.fail ∧ t.errCode = s.errCode) ∨
      (t.fail = true ∧ t.res0 = s.res0 ∧ t.res1 = s.res1 ∧ t.res2 = s.res2 ∧ t.res3 = s.res3))

/-- A command reports only the codes of its row of R102. -/
def Obligations.CommandsReportOnlyTheirCodes : Prop :=
  ∀ (i : Instr) (s t : State), s.fail = false → exec i s = .next t → t.fail = true → t.errCode ∈ reportableCodes i

/-- A failed command shows no partial result: the result registers stay 0 (R105). -/
def Obligations.FailureShowsNoPartialResult : Prop :=
  ∀ (i : Instr) (s t : State), s.resultsZero → s.fail = false → exec i s = .next t → t.fail = true → t.resultsZero

/-- The outcome depends on nothing but the operand registers the command reads (R65, R11): two freshly accepted states
that agree on those end with the same results and status, whatever their other operands and their `IE`. -/
def Obligations.OutcomeDependsOnOperandsReadOnly : Prop :=
  ∀ (i : Instr) (s t s' t' : State), sameOperandsRead i s t → s.busy = true → t.busy = true →
    s.Inv Config.width → t.Inv Config.width → i ≠ .clear → exec i s = .next s' → exec i t = .next t' →
    s'.res0 = t'.res0 ∧ s'.res1 = t'.res1 ∧ s'.res2 = t'.res2 ∧ s'.res3 = t'.res3 ∧ s'.statusValue = t'.statusValue

/-- `KEYGEN` is the sequence `TOTIENT`, `PUBEXP`, `MODINV` (R84): where it succeeds, the three commands give its parts.
It leaves at the first failure with that step's code (R84, R67): it fails with a code just when `PUBEXP` does, and with
`TOTIENT`'s code wherever `TOTIENT` fails; `MODINV` adds no failure. -/
def Obligations.KeygenIsTheSequenceOfItsSteps : Prop :=
  (∀ s t : State, exec .keygen s = .next t → t.fail = false →
    exec .pubexp s = .next (s.completedOk t.res0 t.res1 0 t.res3) ∧
    (∀ u : State, u.opa = t.res0 → u.opm = t.res3 → exec .modinv u = .next (u.completedOk t.res2 0 0 0)) ∧
    (∀ u : State, u.opa = s.opa → u.opb = s.opb → exec .totient u = .next (u.completedOk 0 0 0 t.res3))) ∧
  ∀ s : State, s.fail = false → ∀ code : ErrCode,
    (exec .keygen s = .next (s.completedErr code) ↔ exec .pubexp s = .next (s.completedErr code)) ∧
    (exec .totient s = .next (s.completedErr code) → exec .keygen s = .next (s.completedErr code))

/-! ## The lifecycle -/

/-- Accept (R60): with `BUSY = 0`, a word other than `0x0F` is latched, the status and the results are cleared and the
command runs; `irq` is low after it; the write answers without error. -/
def Obligations.AcceptStartsTheCommand : Prop :=
  ∀ (s : State) (v : Nat) (rest : List Event), s.busy = false → BitVec.ofNat 8 v ≠ (0x0F : CommandWord) →
    s.schedule = .transact (.write 0x0 v) :: rest →
    step s = .next { s with
      curCmd := BitVec.ofNat 8 v, busy := true, done := false, fail := false, errCode := 0,
      res0 := 0, res1 := 0, res2 := 0, res3 := 0, schedule := rest } ∧
    stepResponse s = some { rdata := 0, error := false } ∧
    ∀ t, step s = .next t → t.irq = false

/-- The completion step (R62, R104): all results and the status in one step, or the failure's code and no result. `irq`
is then `IE`. That the step of a busy block with an empty schedule is this one is the model's reading (log entry 3,
DEDUCED). -/
def Obligations.CompletionCommitsTheOutcome : Prop :=
  ∀ s : State, s.busy = true → s.curCmd ≠ 0x0F → s.schedule = [] →
    (∀ r, execOutcome Config.width s.curCmd s.opa s.opb s.opm s.opr = .ok r →
      step s = .next { s with
        res0 := r.r0, res1 := r.r1, res2 := r.r2, res3 := r.r3, busy := false, done := true }) ∧
    (∀ f, execOutcome Config.width s.curCmd s.opa s.opb s.opm s.opr = .error f →
      step s = .next { s with busy := false, done := true, fail := true, errCode := f.code }) ∧
    ∀ t, step s = .next t → t.irq = s.ie

/-- From the write to the end (R60, R62, R104): the accepted command's outcome on the operands present at the write. -/
def Obligations.AcceptedCommandCompletesOnItsOperands : Prop :=
  ∀ (s : State) (v : Nat) (rest : List Event), s.busy = false → BitVec.ofNat 8 v ≠ (0x0F : CommandWord) →
    s.schedule = .transact (.write 0x0 v) :: .complete :: rest →
    Host.Core.run Sys2Proof.core 2 s = .next (State.afterCompletion Config.width { s with
      curCmd := BitVec.ofNat 8 v, busy := true, done := false, fail := false, errCode := 0,
      res0 := 0, res1 := 0, res2 := 0, res3 := 0, schedule := rest })

/-- An illegal word (R98, R53) is accepted like any command and completes with `IllegalCommand`; it stays readable in
`CMD`. -/
def Obligations.IllegalWordFailsWithIllegalCommand : Prop :=
  ∀ (s : State) (v : Nat) (rest : List Event), s.busy = false →
    (v % 256 = 0x00 ∨ (0x09 ≤ v % 256 ∧ v % 256 ≤ 0x0E) ∨ 0x10 ≤ v % 256) →
    s.schedule = .transact (.write 0x0 v) :: .complete :: rest →
    Host.Core.run Sys2Proof.core 2 s = .next { s with
      curCmd := BitVec.ofNat 8 v, busy := false, done := true, fail := true, errCode := 8,
      res0 := 0, res1 := 0, res2 := 0, res3 := 0, schedule := rest }

/-- Abort (R97): a `CTRL` write with bit 1 set ends a running command with `Aborted`; while idle it only sets `IE`; its
race with the completion goes by whichever step is first. -/
def Obligations.AbortEndsTheRunningCommand : Prop :=
  ∀ (s : State) (v : Nat) (rest : List Event), v.testBit 1 = true →
    (s.busy = true → s.schedule = .transact (.write 0x2 v) :: rest →
      step s = .next { s with
        ie := v.testBit 0, busy := false, done := true, fail := true, errCode := 9, schedule := rest } ∧
      stepResponse s = some { rdata := 0, error := false } ∧ ∀ t, step s = .next t → t.irq = v.testBit 0) ∧
    (s.busy = false → s.schedule = .transact (.write 0x2 v) :: rest →
      step s = .next { s with ie := v.testBit 0, schedule := rest } ∧
      stepResponse s = some { rdata := 0, error := false }) ∧
    (s.busy = true → s.schedule = .transact (.write 0x2 v) :: .complete :: rest →
      Host.Core.run Sys2Proof.core 2 s = .next { s with
        ie := v.testBit 0, busy := false, done := true, fail := true, errCode := 9, schedule := rest }) ∧
    (s.busy = true → s.curCmd ≠ 0x0F → s.schedule = .complete :: .transact (.write 0x2 v) :: rest →
      Host.Core.run Sys2Proof.core 2 s =
        .next { s.afterCompletion Config.width with ie := v.testBit 0, schedule := rest })

/-- Interrupt enable (R99): a `CTRL` write without the abort bit sets `IE` at any time and nothing else; `irq` follows at
once. -/
def Obligations.CtrlWriteSetsTheInterruptEnable : Prop :=
  ∀ (s : State) (v : Nat) (rest : List Event), v.testBit 1 = false →
    s.schedule = .transact (.write 0x2 v) :: rest →
    step s = .next { s with ie := v.testBit 0, schedule := rest } ∧
    stepResponse s = some { rdata := 0, error := false } ∧
    ∀ t, step s = .next t → t.irq = (s.done && v.testBit 0)

/-- A `WAIT` (R55) on a running command lasts until its completion, and then reads `STATUS` with `BUSY = 0`. That a `WAIT`
is one event, and that its step while `BUSY = 1` is the core's completion, is the model's choice (log entry 5, DESIGN
CHOICE). -/
def Obligations.WaitLastsUntilTheCompletion : Prop :=
  ∀ (s : State) (rest : List Event), s.busy = true → s.curCmd ≠ 0x0F → s.schedule = .wait :: rest →
    step s = .next (s.afterCompletion Config.width) ∧
    Host.Core.run Sys2Proof.core 2 s = .next { s.afterCompletion Config.width with schedule := rest } ∧
    ∃ r, stepResponse (s.afterCompletion Config.width) = some r ∧ r.error = false ∧ r.rdata.testBit 0 = false

/-! ## The host port -/

/-- Operand writes with `BUSY = 0` (R33): the register takes the value, and nothing else changes. -/
def Obligations.OperandWriteStoresItsValue : Prop :=
  ∀ (s : State) (v : Nat) (rest : List Event), s.busy = false →
    (s.schedule = .transact (.write 0x4 v) :: rest → step s = .next { s with opa := v, schedule := rest }) ∧
    (s.schedule = .transact (.write 0x5 v) :: rest → step s = .next { s with opb := v, schedule := rest }) ∧
    (s.schedule = .transact (.write 0x6 v) :: rest → step s = .next { s with opm := v, schedule := rest }) ∧
    (s.schedule = .transact (.write 0x7 v) :: rest → step s = .next { s with opr := v, schedule := rest }) ∧
    (∀ addr ∈ [(0x4 : RegAddr), 0x5, 0x6, 0x7], s.schedule = .transact (.write addr v) :: rest →
      stepResponse s = some { rdata := 0, error := false })

/-- Writes to `CMD` (R34, `CLEAR` too) and to an operand register (R35) while `BUSY = 1` are refused: no change, an error
response, and the running command goes on. -/
def Obligations.WritesWhileBusyAreRefused : Prop :=
  ∀ (s : State) (addr : RegAddr) (v : Nat) (rest : List Event), s.busy = true →
    addr ∈ [(0x0 : RegAddr), 0x4, 0x5, 0x6, 0x7] → s.schedule = .transact (.write addr v) :: rest →
    step s = .next { s with schedule := rest } ∧ stepResponse s = some { rdata := 0, error := true }

/-- Writes to `STATUS`, `WIDTH` and the result registers change nothing and answer with an error, at any time (R36). -/
def Obligations.ReadOnlyRegistersRefuseWrites : Prop :=
  ∀ (s : State) (addr : RegAddr) (v : Nat) (rest : List Event),
    addr ∈ [(0x1 : RegAddr), 0x3, 0x8, 0x9, 0xA, 0xB] → s.schedule = .transact (.write addr v) :: rest →
    step s = .next { s with schedule := rest } ∧ stepResponse s = some { rdata := 0, error := true }

/-- Any access to a reserved address changes nothing, returns 0 and answers with an error (R37). -/
def Obligations.ReservedAddressesAnswerWithAnError : Prop :=
  ∀ (s : State) (addr : RegAddr) (v : Nat) (req : Request) (rest : List Event), 0xC ≤ addr.toNat →
    (req = .read addr ∨ req = .write addr v) → s.schedule = .transact req :: rest →
    step s = .next { s with schedule := rest } ∧ stepResponse s = some { rdata := 0, error := true }

/-- Reads (R31): what each address returns, and no change of state, at any time; a result register reads 0 while
`BUSY = 1`. -/
def Obligations.ReadsReturnTheRegisters : Prop :=
  ∀ (s : State) (addr : RegAddr) (rest : List Event), s.schedule = .transact (.read addr) :: rest →
    step s = .next { s with schedule := rest } ∧
    stepResponse s = some {
      rdata :=
        if addr = 0x0 then s.curCmd.toNat
        else if addr = 0x1 then s.busy.toNat + 2 * s.done.toNat + 4 * s.fail.toNat + 16 * s.errCode.toNat
        else if addr = 0x2 then s.ie.toNat
        else if addr = 0x3 then Config.width.register
        else if addr = 0x4 then s.opa
        else if addr = 0x5 then s.opb
        else if addr = 0x6 then s.opm
        else if addr = 0x7 then s.opr
        else if addr = 0x8 then s.res0
        else if addr = 0x9 then s.res1
        else if addr = 0xA then s.res2
        else if addr = 0xB then s.res3
        else 0
      error := decide (0xC ≤ addr.toNat) } ∧
    (s.Inv Config.width → s.busy = true → 0x8 ≤ addr.toNat →
      ∀ r, stepResponse s = some r → r.rdata = 0)

/-- A transaction answers with an error in exactly the cases of R106, and then nothing changes and it returns 0. -/
def Obligations.AccessErrorsAreExactlyTheseAndChangeNothing : Prop :=
  ∀ (s : State) (req : Request) (rest : List Event), s.schedule = .transact req :: rest →
    ∃ r, stepResponse s = some r ∧
      (r.error = true ↔
        (∃ addr, req = .read addr ∧ 0xC ≤ addr.toNat) ∨
        (∃ addr v, req = .write addr v ∧ (0xC ≤ addr.toNat ∨
          addr ∈ [(0x1 : RegAddr), 0x3, 0x8, 0x9, 0xA, 0xB] ∨
          (s.busy = true ∧ addr ∈ [(0x0 : RegAddr), 0x4, 0x5, 0x6, 0x7])))) ∧
      (r.error = true → step s = .next { s with schedule := rest } ∧ r.rdata = 0)

/-- The fields of `STATUS` (R14), and its reserved bits, which read 0. -/
def Obligations.StatusFieldsStandInTheirBits : Prop :=
  ∀ (w : Width) (s : State), let v := (portResponse w (.read 0x1) s).rdata
    v.testBit 0 = s.busy ∧ v.testBit 1 = s.done ∧ v.testBit 2 = s.fail ∧ v.testBit 3 = false ∧
    v / 16 = s.errCode.toNat ∧ v < 256

/-- `WIDTH` (R16) reads `W` when `16 ≤ W ≤ 65535` and 0 otherwise; a write changes nothing and errs. -/
def Obligations.WidthReadsTheParameter : Prop :=
  (∀ (s : State) (k : Nat), 16 + k ≤ 65535 → (portResponse (.finite k) (.read 0x3) s).rdata = 16 + k) ∧
  (∀ (s : State) (k : Nat), 65535 < 16 + k → (portResponse (.finite k) (.read 0x3) s).rdata = 0) ∧
  (∀ s : State, (portResponse .unbounded (.read 0x3) s).rdata = 0) ∧
  (∀ (s : State) (v : Nat) (rest : List Event), s.schedule = .transact (.write 0x3 v) :: rest →
    step s = .next { s with schedule := rest } ∧ stepResponse s = some { rdata := 0, error := true })

/-- Reset (R120, R121, R23): from any state, in one step, every register and flag is 0 and no command is running;
a transaction presented meanwhile has no effect and answers 0 without error. That what the host presents later stays in
the schedule is the model's reading (log entry 10, DEDUCED). -/
def Obligations.ResetZeroesTheBlock : Prop :=
  ∀ (s : State) (presented : Option Request) (rest : List Event), s.schedule = .reset presented :: rest →
    step s = .next {
      opa := 0, opb := 0, opm := 0, opr := 0, res0 := 0, res1 := 0, res2 := 0, res3 := 0, curCmd := 0,
      busy := false, done := false, fail := false, errCode := 0, ie := false, schedule := rest } ∧
    (stepResponse s = presented.map fun _ => { rdata := 0, error := false }) ∧
    ∀ t, step s = .next t → t.irq = false

/-- The state after reset (R23): every component of R25 is 0, `irq` is low, and the block waits. Its empty schedule is
the model's choice (log entry 16). -/
def Obligations.ResetStateIsAllZeroAndWaits : Prop :=
  let s := Sys2Proof.core.reset
  s = ({
    opa := 0, opb := 0, opm := 0, opr := 0, res0 := 0, res1 := 0, res2 := 0, res3 := 0, curCmd := 0,
    busy := false, done := false, fail := false, errCode := 0, ie := false, schedule := [] } : State) ∧
  State.irq s = false ∧ Sys2Proof.core.step s = .next s

/-- The interrupt level (R107): `irq = DONE and IE`. It rises at a completion or an abort when `IE = 1`, or when the host
sets `IE` while `DONE = 1`, and only then; it falls at an accepted `CMD` write (`CLEAR` too), at reset, or when the host
clears `IE`, and only then. -/
def Obligations.IrqRisesAndFallsOnlyAt : Prop :=
  ∀ s t : State, step s = .next t →
    (s.irq = (s.done && s.ie)) ∧
    (s.irq = false → t.irq = true →
      (s.busy = true ∧ t.busy = false) ∨
      (∃ v rest, s.schedule = .transact (.write 0x2 v) :: rest ∧ v.testBit 0 = true ∧ s.done = true)) ∧
    (s.irq = true → t.irq = false →
      (∃ v rest, s.schedule = .transact (.write 0x0 v) :: rest ∧ s.busy = false) ∨
      (∃ p rest, s.schedule = .reset p :: rest) ∨
      (∃ v rest, s.schedule = .transact (.write 0x2 v) :: rest ∧ v.testBit 0 = false)) ∧
    (s.busy = true → t.busy = false → t.irq = t.ie ∨ ∃ p rest, s.schedule = .reset p :: rest) ∧
    (∀ v rest, s.schedule = .transact (.write 0x2 v) :: rest →
      t.irq = (t.done && v.testBit 0) ∧ (s.done = true → t.done = true)) ∧
    (∀ v rest, s.schedule = .transact (.write 0x0 v) :: rest → s.busy = false → t.irq = false) ∧
    (∀ p rest, s.schedule = .reset p :: rest → t.irq = false)

/-! ## The whole machine -/

/-- The reset state meets the invariants (R26). -/
def Obligations.ResetMeetsTheInvariant : Prop := State.reset.Inv Config.width

/-- Every step keeps the invariants of R26 (items 1 to 4 and 6), the ranges of the registers (R25, R7), and the `CUR_CMD`
clause of R61, from every state that meets them. -/
def Obligations.EveryStepKeepsTheInvariant : Prop :=
  ∀ s t : State, s.Inv Config.width → step s = .next t → t.Inv Config.width

/-- R26 item 5: once the result registers hold the success outcome of `CUR_CMD` on the operands, they do after every
step that leaves the operand registers as they were; reset meets it too. -/
def Obligations.ResultsStayCurrentUntilAnOperandChanges : Prop :=
  State.reset.resultsCurrent Config.width ∧
  ∀ s t : State, s.resultsCurrent Config.width → step s = .next t → s.sameOperands t → t.resultsCurrent Config.width

/-- No step of the machine stops: every transaction in every state has an effect, and every command an outcome (R132). -/
def Obligations.EveryStepAnswersANextState : Prop := ∀ s : State, ∃ t, step s = .next t

/-- The phase (R18, R67): `BUSY` rises only at an accepted `CMD` write other than `CLEAR`, and falls only at a completion,
an abort or reset. Where in a schedule a completion falls is the model's choice (log entries 2, 3, 5). -/
def Obligations.PhaseChangesOnlyAt : Prop :=
  ∀ s t : State, step s = .next t →
    (s.busy = false → t.busy = true →
      ∃ v rest, s.schedule = .transact (.write 0x0 v) :: rest ∧ BitVec.ofNat 8 v ≠ (0x0F : CommandWord) ∧
        t.curCmd = BitVec.ofNat 8 v) ∧
    (s.busy = true → t.busy = false →
      (t.done = true ∧ (s.schedule = [] ∨ ∃ rest, s.schedule = .complete :: rest ∨ s.schedule = .wait :: rest)) ∨
      (∃ v rest, s.schedule = .transact (.write 0x2 v) :: rest ∧ v.testBit 1 = true) ∨
      (∃ p rest, s.schedule = .reset p :: rest))

/-- Operand registers (R11): only an accepted host write to that register, or reset, changes one; no command does. -/
def Obligations.OperandsChangeOnlyByHostOrReset : Prop :=
  ∀ s t : State, step s = .next t →
    (∃ p rest, s.schedule = .reset p :: rest) ∨
    ((t.opa = s.opa ∨ ∃ v rest, s.schedule = .transact (.write 0x4 v) :: rest ∧ s.busy = false ∧ t.opa = v) ∧
     (t.opb = s.opb ∨ ∃ v rest, s.schedule = .transact (.write 0x5 v) :: rest ∧ s.busy = false ∧ t.opb = v) ∧
     (t.opm = s.opm ∨ ∃ v rest, s.schedule = .transact (.write 0x6 v) :: rest ∧ s.busy = false ∧ t.opm = v) ∧
     (t.opr = s.opr ∨ ∃ v rest, s.schedule = .transact (.write 0x7 v) :: rest ∧ s.busy = false ∧ t.opr = v))

/-- Result registers (R12): a step leaves all four as they were, or sets all four to 0 (accept, `CLEAR`, reset), or is a
successful completion, which writes the outcome of `CUR_CMD`. -/
def Obligations.ResultsChangeOnlyAtThreeMoments : Prop :=
  ∀ s t : State, step s = .next t →
    (t.res0 = s.res0 ∧ t.res1 = s.res1 ∧ t.res2 = s.res2 ∧ t.res3 = s.res3) ∨
    (t.resultsZero ∧
      ((∃ v rest, s.schedule = .transact (.write 0x0 v) :: rest ∧ s.busy = false) ∨
       ∃ p rest, s.schedule = .reset p :: rest)) ∨
    (s.busy = true ∧ t.busy = false ∧ t.done = true ∧
      execOutcome Config.width s.curCmd s.opa s.opb s.opm s.opr = .ok ⟨t.res0, t.res1, t.res2, t.res3⟩)

/-- `CUR_CMD` (R13) and `IE` (R15, R99): each changes only by its own host write, or by reset. -/
def Obligations.CommandAndEnableChangeOnlyByTheirWrites : Prop :=
  ∀ s t : State, step s = .next t →
    (∃ p rest, s.schedule = .reset p :: rest) ∨
    ((t.curCmd = s.curCmd ∨
        ∃ v rest, s.schedule = .transact (.write 0x0 v) :: rest ∧ s.busy = false ∧ t.curCmd = BitVec.ofNat 8 v) ∧
     (t.ie = s.ie ∨ ∃ v rest, s.schedule = .transact (.write 0x2 v) :: rest ∧ t.ie = v.testBit 0))

/-- Every run ends (R64, R129): from every state that meets the invariants, once the host's schedule is spent no command
is running, within two steps an event and one more. The bound counts the model's steps, not time: the last completion is
the next step (log entry 3, DEDUCED), and a `WAIT` is one event of at most two steps (log entry 5, DESIGN CHOICE). -/
def Obligations.EveryScheduleEndsIdle : Prop :=
  ∀ s : State, s.Inv Config.width →
    ∃ t : State, Host.Core.run Sys2Proof.core (2 * s.schedule.length + 1) s = .next t ∧ t.busy = false ∧ t.schedule = []

/-! ## Headline results -/

/-- What a successful `KEYGEN` guarantees (R86 items 1 to 5), and `PUBEXP` of items 1 to 4, for every `p` and `q`, prime or
not; and item 6, the round trip, where they are distinct primes. -/
def Obligations.KeygenGuarantees : Prop :=
  ∀ (i : Instr) (s t : State), (i = .keygen ∨ i = .pubexp) → exec i s = .next t → t.fail = false →
    t.res1 = s.opa * s.opb ∧ t.res3 = (s.opa - 1) * (s.opb - 1) ∧ 128 ≤ t.res3 ∧
    s.opr ≤ t.res0 ∧ t.res0 ≤ t.res1 - 2 ∧ 1 ≤ s.opr ∧ s.opr ≤ t.res1 / 2 ∧
    Nat.gcd t.res0 t.res3 = 1 ∧
    (∀ e', s.opr ≤ e' → e' < t.res0 → Nat.gcd e' t.res3 ≠ 1) ∧ (t.res0 = 1 ↔ s.opr = 1) ∧
    (i = .keygen → t.res2 < t.res3 ∧ (t.res0 * t.res2) % t.res3 = 1) ∧
    (i = .keygen → s.opa.Prime → s.opb.Prime → s.opa ≠ s.opb → ∀ (x : Nat) (enc mid dec : State), x < t.res1 →
      enc.opa = x → enc.opb = t.res0 → enc.opm = t.res1 → exec .modpow enc = .next mid →
      dec.opa = mid.res0 → dec.opb = t.res2 → dec.opm = t.res1 →
      exec .modpow dec = .next (dec.completedOk x 0 0 0))

/-- The round-trip law (R78): for distinct primes and `gcd(e, φ) = 1`, `MODPOW` under `e` and then under the inverse that
`MODINV` gives returns `x mod n`, which is `x` for every `x` in `[0, n)`. -/
def Obligations.RoundTripLaw : Prop :=
  ∀ (p q e x : Nat) (inv key enc mid dec : State), p.Prime → q.Prime → p ≠ q →
    Nat.gcd e ((p - 1) * (q - 1)) = 1 →
    inv.opa = e → inv.opm = (p - 1) * (q - 1) → exec .modinv inv = .next key →
    enc.opa = x → enc.opb = e → enc.opm = p * q → exec .modpow enc = .next mid →
    dec.opa = mid.res0 → dec.opb = key.res0 → dec.opm = p * q →
    exec .modpow dec = .next (dec.completedOk (x % (p * q)) 0 0 0) ∧ (x < p * q → x % (p * q) = x)

/-- What a successful `CRACK` guarantees, and that it recovers the key of a successful `KEYGEN` on distinct primes, in
either operand order (R94). -/
def Obligations.CrackGuaranteesAndRecoversTheKey : Prop :=
  (∀ s t : State, exec .crack s = .next t → t.fail = false →
    t.res0 * t.res1 = s.opm ∧ 2 ≤ t.res0 ∧ t.res0 ≤ t.res1 ∧ (∀ y, 2 ≤ y → y < t.res0 → ¬ y ∣ s.opm) ∧
    t.res3 = (t.res0 - 1) * (t.res1 - 1) ∧ t.res2 < t.res3 ∧ (s.opa * t.res2) % t.res3 = 1 % t.res3) ∧
  (∀ (p0 q0 : Nat) (s t u : State), p0.Prime → q0.Prime → p0 < q0 →
    ((s.opa = p0 ∧ s.opb = q0) ∨ (s.opa = q0 ∧ s.opb = p0)) →
    exec .keygen s = .next t → t.fail = false → u.opa = t.res0 → u.opm = t.res1 →
    exec .crack u = .next (u.completedOk p0 q0 t.res2 t.res3))

/-! ## The status flags -/

/-- The status (R19): over one step `BUSY`, `DONE`, `FAIL` and `ERRCODE` all keep their values, or the step is one of
these: an accepted `CMD` write (`CLEAR` too) or reset, which clear the last three; a completion, which sets `DONE`, and
`FAIL` and `ERRCODE` at a failure only (R62, R104); an abort (R97). Where in a schedule a completion falls is the model's
choice (log entries 2, 3, 5). -/
def Obligations.StatusFlagsChangeOnlyAt : Prop :=
  ∀ s t : State, step s = .next t →
    (t.busy = s.busy ∧ t.done = s.done ∧ t.fail = s.fail ∧ t.errCode = s.errCode) ∨
    (t.done = false ∧ t.fail = false ∧ t.errCode = 0 ∧
      ((∃ v rest, s.schedule = .transact (.write 0x0 v) :: rest ∧ s.busy = false ∧
          (t.busy = true ↔ BitVec.ofNat 8 v ≠ (0x0F : CommandWord))) ∨
       (∃ p rest, s.schedule = .reset p :: rest ∧ t.busy = false))) ∨
    (s.busy = true ∧ t.busy = false ∧ t.done = true ∧
      (s.schedule = [] ∨ ∃ rest, s.schedule = .complete :: rest ∨ s.schedule = .wait :: rest) ∧
      ((t.fail = s.fail ∧ t.errCode = s.errCode ∧
          ∃ r, execOutcome Config.width s.curCmd s.opa s.opb s.opm s.opr = .ok r) ∨
       (t.fail = true ∧
          ∃ f, execOutcome Config.width s.curCmd s.opa s.opb s.opm s.opr = .error f ∧ t.errCode = f.code))) ∨
    (s.busy = true ∧ t.busy = false ∧ t.done = true ∧ t.fail = true ∧ t.errCode = 9 ∧
      ∃ v rest, s.schedule = .transact (.write 0x2 v) :: rest ∧ v.testBit 1 = true)
end

