-- ==== Sys2Proof/Laws/Decode.lean ====
section
/-! SUPPORT. The decoder and the encoder agree, and the words that are no command. -/

namespace Sys2Proof

theorem decodeWord_encodeWord (i : Instr) : decodeWord (encodeWord i) = .ok i := by cases i <;> rfl

/-- Every row of the opcode map fixes all eight bits, and no two rows ask for the same word: none overlap. -/
theorem opcodeRows_no_overlap :
    (∀ row ∈ opcodeRows, row.mask = 0xFF) ∧ opcodeRows.Pairwise fun a b => a.bits ≠ b.bits := by decide

theorem selectedBy_full_mask (c bits : CommandWord) (i : Instr) :
    OpcodeRow.selectedBy c ⟨bits, 0xFF, i⟩ = (c == bits) := by
  have : c &&& 0xFF = c := BitVec.and_allOnes
  simp only [OpcodeRow.selectedBy, this]

/-- What a word decodes to: the command it encodes, or a rejection that names it. -/
theorem decodeWord_cases (c : CommandWord) :
    (∃ i, decodeWord c = .ok i ∧ encodeWord i = c) ∨
      (decodeWord c = .error (.illegalCommand c) ∧ ∀ i, encodeWord i ≠ c) := by
  unfold decodeWord
  cases hfind : opcodeRows.find? (OpcodeRow.selectedBy c) with
  | some row =>
    have hmem := List.mem_of_find?_eq_some hfind
    have hsel := List.find?_some hfind
    have hmap : ∀ row ∈ opcodeRows, encodeWord row.instr = row.bits ∧ row.mask = 0xFF := by decide
    obtain ⟨henc, hmask⟩ := hmap row hmem
    refine .inl ⟨row.instr, rfl, ?_⟩
    have hrow : row = ⟨row.bits, 0xFF, row.instr⟩ := by rw [← hmask]
    rw [hrow, selectedBy_full_mask] at hsel
    rw [henc]
    exact (beq_iff_eq.mp hsel).symm
  | none =>
    refine .inr ⟨rfl, fun i henc => ?_⟩
    have hall : ∀ row ∈ opcodeRows, ¬ OpcodeRow.selectedBy c row = true := List.find?_eq_none.mp hfind
    have hrow : (⟨encodeWord i, 0xFF, i⟩ : OpcodeRow) ∈ opcodeRows := by cases i <;> decide
    exact hall _ hrow (by rw [selectedBy_full_mask, henc]; exact beq_self_eq_true c)

theorem decodeWord_eq_ok_iff (c : CommandWord) (i : Instr) : decodeWord c = .ok i ↔ c = encodeWord i := by
  refine ⟨fun h => ?_, fun h => h ▸ decodeWord_encodeWord i⟩
  obtain ⟨j, hj, henc⟩ | ⟨herr, -⟩ := decodeWord_cases c
  · rw [hj] at h
    exact (Except.ok.inj h) ▸ henc.symm
  · rw [herr] at h
    cases h

end Sys2Proof
end

