-- ==== Sys2Proof/Laws/Width.lean ====
section
/-! SUPPORT. What `Width.fits` says: below `2^W`, and always when `W` is unbounded. -/

namespace Sys2Proof

theorem Width.fits_unbounded (v : Nat) : Width.unbounded.fits v = true := by simp [Width.fits]

theorem Width.fits_finite_iff (k : Nat) (v : Nat) : (Width.finite k).fits v = true ↔ v < 2 ^ (16 + k) := by
  have h : 2 ^ 16 ≤ 2 ^ (16 + k) := Nat.pow_le_pow_right (by decide) (by omega)
  simp only [Width.fits, Bool.or_eq_true, decide_eq_true_eq]
  exact ⟨fun hv => hv.elim (fun h16 => lt_of_lt_of_le h16 h) id, .inr⟩

theorem Width.fits_of_le (w : Width) {u v : Nat} (hle : u ≤ v) (hv : w.fits v = true) : w.fits u = true := by
  cases w with
  | unbounded => exact Width.fits_unbounded u
  | finite k =>
    rw [Width.fits_finite_iff] at hv ⊢
    exact lt_of_le_of_lt hle hv

theorem Width.fits_of_lt (w : Width) {v : Nat} (hv : v < 2 ^ 16) : w.fits v = true := by
  simp only [Width.fits, Bool.or_eq_true, decide_eq_true_eq]
  exact .inl hv

end Sys2Proof
end

