-- ==== Sys2Proof/Laws/Numeric.lean ====
section
/-! SUPPORT. One lemma per pure function of files 41 to 43, saying the whole of what it returns: the loops of the model
compute the normative values. -/

namespace Sys2Proof.Machine

/-! ## `gcd_fn` -/

theorem gcdLoop_eq_gcd (fuel a b : Nat) (h : b < fuel) : gcdLoop fuel a b = Nat.gcd a b := by
  induction fuel generalizing a b with
  | zero => omega
  | succ fuel ih =>
    unfold gcdLoop
    split
    · next hb => simp [hb]
    · next hb =>
      have hlt : a % b < b := Nat.mod_lt _ (by omega)
      rw [ih b (a % b) (by omega), Nat.gcd_comm b, ← Nat.gcd_rec, Nat.gcd_comm]

theorem gcdFn_eq_gcd (a b : Nat) : gcdFn a b = Nat.gcd a b := gcdLoop_eq_gcd (b + 1) a b (by omega)

/-! ## `modinv_fn` -/

/-- The extended loop ends with the gcd, and keeps `old_s * e ≡ old_r` and `s * e ≡ r` modulo `m`. -/
theorem egcdLoop_spec (fuel oldR r : Nat) (oldS s e m : Int) (h : r < fuel)
    (hOld : m ∣ oldS * e - oldR) (hNew : m ∣ s * e - r) :
    (egcdLoop fuel oldR r oldS s).1 = Nat.gcd oldR r ∧
      m ∣ (egcdLoop fuel oldR r oldS s).2 * e - ((egcdLoop fuel oldR r oldS s).1 : Nat) := by
  induction fuel generalizing oldR r oldS s with
  | zero => omega
  | succ fuel ih =>
    unfold egcdLoop
    split
    · next hr => subst hr; exact ⟨by simp, hOld⟩
    · next hr =>
      have hsub : oldR - oldR / r * r = oldR % r := by
        have := Nat.div_add_mod' oldR r
        omega
      have hlt : oldR % r < r := Nat.mod_lt _ (by omega)
      rw [hsub]
      have hcast : ((oldR % r : Nat) : Int) = oldR - ((oldR / r : Nat) : Int) * r := by
        have := Nat.div_add_mod' oldR r
        have : ((oldR / r * r + oldR % r : Nat) : Int) = oldR := by rw [this]
        push_cast at this ⊢
        linarith
      have hstep : m ∣ (oldS - ((oldR / r : Nat) : Int) * s) * e - ((oldR % r : Nat) : Int) := by
        have := dvd_sub hOld (Dvd.dvd.mul_left hNew ((oldR / r : Nat) : Int))
        rw [hcast]
        have heq : (oldS - ((oldR / r : Nat) : Int) * s) * e - (oldR - ((oldR / r : Nat) : Int) * r) =
            oldS * e - oldR - ((oldR / r : Nat) : Int) * (s * e - r) := by ring
        rwa [heq]
      obtain ⟨hg, hd⟩ := ih r (oldR % r) s (oldS - ((oldR / r : Nat) : Int) * s) (by omega) hNew hstep
      refine ⟨?_, hd⟩
      rw [hg, Nat.gcd_comm r, ← Nat.gcd_rec, Nat.gcd_comm]

theorem modinvFn_zero (e : Nat) : modinvFn e 0 = .error .invalidOperand := rfl

theorem modinvFn_not_coprime {e m : Nat} (hm : m ≠ 0) (hg : Nat.gcd e m ≠ 1) :
    modinvFn e m = .error .notInvertible := by
  obtain ⟨hgcd, -⟩ := egcdLoop_spec (m + 1) e m 1 0 e m (by omega) (by simp) (by simp)
  simp [modinvFn, hm, hgcd, hg]

/-- With `gcd(e, m) = 1` the result is an inverse in `[0, m)`. -/
theorem modinvFn_coprime {e m : Nat} (hm : m ≠ 0) (hg : Nat.gcd e m = 1) :
    ∃ d, modinvFn e m = .ok d ∧ d < m ∧ (e * d) % m = 1 % m := by
  obtain ⟨hgcd, hdvd⟩ := egcdLoop_spec (m + 1) e m 1 0 e m (by omega) (by simp) (by simp)
  rw [hg] at hgcd
  rw [hgcd] at hdvd
  have hpos : (0 : Int) < m := by exact_mod_cast Nat.pos_of_ne_zero hm
  refine ⟨_, by simp [modinvFn, hm, hgcd]; rfl, ?_, ?_⟩
  · have := Int.emod_lt_of_pos (egcdLoop (m + 1) e m 1 0).2 hpos
    have := Int.emod_nonneg (egcdLoop (m + 1) e m 1 0).2 hpos.ne'
    omega
  · set c := (egcdLoop (m + 1) e m 1 0).2
    have hnn := Int.emod_nonneg c hpos.ne'
    have hmod : ((e : Int) * (c % m)) % m = 1 % m := by
      rw [Int.mul_emod, Int.emod_emod, ← Int.mul_emod, mul_comm]
      exact Int.emod_eq_emod_iff_emod_sub_eq_zero.mpr (Int.emod_eq_zero_of_dvd (by simpa using hdvd))
    have hto : (((c % m).toNat : Nat) : Int) = c % m := Int.toNat_of_nonneg hnn
    zify
    rw [hto]
    exact hmod

/-- An inverse in `[0, m)` is unique. -/
theorem inverse_unique {e m d d' : Nat} (hg : Nat.gcd e m = 1) (hd : d < m) (hd' : d' < m)
    (h : (e * d) % m = 1 % m) (h' : (e * d') % m = 1 % m) : d = d' := by
  have heq : e * d ≡ e * d' [MOD m] := h.trans h'.symm
  have := Nat.ModEq.cancel_left_of_coprime (by rwa [Nat.gcd_comm]) heq
  exact Nat.ModEq.eq_of_lt_of_lt this hd hd'

/-! ## `modpow_fn` -/

theorem powLoop_eq (fuel result b k m : Nat) (h : k < fuel) (hr : result < m) :
    powLoop fuel result b k m = (result * b ^ k) % m := by
  induction fuel generalizing result b k with
  | zero => omega
  | succ fuel ih =>
    unfold powLoop
    split
    · next hk =>
      have hm : 0 < m := by omega
      have hres : (if k % 2 = 1 then result * b % m else result) < m := by
        split
        · exact Nat.mod_lt _ hm
        · exact hr
      rw [ih _ _ _ (by omega) hres]
      have hsq : (b * b % m) ^ (k / 2) ≡ b ^ (2 * (k / 2)) [MOD m] := by
        have := (Nat.mod_modEq (b * b) m).pow (k / 2)
        rwa [← pow_two b, ← pow_mul, pow_two] at this
      rcases Nat.mod_two_eq_zero_or_one k with hpar | hpar
      · rw [if_neg (by omega)]
        have hk2 : 2 * (k / 2) = k := by omega
        rw [hk2] at hsq
        exact hsq.mul_left result
      · rw [if_pos hpar]
        have hk2 : k = 2 * (k / 2) + 1 := by omega
        have := (Nat.mod_modEq (result * b) m).mul hsq
        refine this.trans ?_
        conv_rhs => rw [hk2, pow_succ]
        have : result * b * b ^ (2 * (k / 2)) = result * (b ^ (2 * (k / 2)) * b) := by ring
        rw [this]
    · next hk =>
      have : k = 0 := by omega
      subst this
      simp [Nat.mod_eq_of_lt hr]

theorem modpowFn_zero (b k : Nat) : modpowFn b k 0 = .error .invalidOperand := rfl

theorem modpowFn_pos {m : Nat} (b k : Nat) (hm : m ≠ 0) : modpowFn b k m = .ok (b ^ k % m) := by
  unfold modpowFn
  rw [if_neg hm]
  split
  · next h1 => subst h1; simp [Nat.mod_one]
  · next h1 =>
    rw [powLoop_eq _ _ _ _ _ (by omega) (by omega), one_mul, ← Nat.pow_mod]

/-! ## `totient_fn` -/

theorem totientFn_small {p q : Nat} (h : p = 0 ∨ q = 0 ∨ (p - 1) * (q - 1) ≤ 127) :
    totientFn p q = .error .invalidKeyMaterial := by
  unfold totientFn
  split
  · rfl
  · next hz => rw [if_pos (by simp only [Config.phiMin]; tauto)]

theorem totientFn_large {p q : Nat} (h : 127 < (p - 1) * (q - 1)) :
    totientFn p q = .ok ((p - 1) * (q - 1)) := by
  unfold totientFn
  rw [if_neg (by rintro (rfl | rfl) <;> simp at h), if_neg (by simp only [Config.phiMin]; omega)]

/-- A passing totient is below the modulus. -/
theorem totient_lt_product {p q : Nat} (h : 127 < (p - 1) * (q - 1)) : (p - 1) * (q - 1) + 2 < p * q := by
  obtain _ | p := p
  · simp at h
  obtain _ | q := q
  · simp at h
  simp only [Nat.add_sub_cancel] at h ⊢
  have : 0 < p * q := by omega
  have hp : 0 < p := Nat.pos_of_mul_pos_right this
  have hq : 0 < q := Nat.pos_of_mul_pos_left this
  have : 2 ≤ p ∨ 2 ≤ q := by
    by_contra hcon
    have : p = 1 := by omega
    have : q = 1 := by omega
    subst_vars
    omega
  nlinarith

/-! ## `pubexp_fn` -/

/-- The scan returns the least coprime candidate of its range, or says that there is none. -/
theorem scanLoop_spec (fuel e last phi : Nat) (h : last + 1 - e ≤ fuel) :
    (∃ x, scanLoop fuel e last phi = .ok x ∧ e ≤ x ∧ x ≤ last ∧ Nat.gcd x phi = 1 ∧
        ∀ y, e ≤ y → y < x → Nat.gcd y phi ≠ 1) ∨
      (scanLoop fuel e last phi = .error .searchExhausted ∧ ∀ y, e ≤ y → y ≤ last → Nat.gcd y phi ≠ 1) := by
  induction fuel generalizing e with
  | zero => exact .inr ⟨rfl, fun y h1 h2 => by omega⟩
  | succ fuel ih =>
    unfold scanLoop
    split
    · next hle =>
      rw [gcdFn_eq_gcd]
      split
      · next hg => exact .inl ⟨e, rfl, le_rfl, hle, hg, fun y h1 h2 => by omega⟩
      · next hg =>
        have hstep : ∀ y, e ≤ y → y ≠ e → e + 1 ≤ y := fun y h1 h2 => by omega
        obtain ⟨x, hx, hex, hxl, hgx, hmin⟩ | ⟨herr, hnone⟩ := ih (e + 1) (by omega)
        · refine .inl ⟨x, hx, by omega, hxl, hgx, fun y h1 h2 => ?_⟩
          by_cases hy : y = e
          · exact hy ▸ hg
          · exact hmin y (hstep y h1 hy) h2
        · refine .inr ⟨herr, fun y h1 h2 => ?_⟩
          by_cases hy : y = e
          · exact hy ▸ hg
          · exact hnone y (hstep y h1 hy) h2
    · next hle => exact .inr ⟨rfl, fun y h1 h2 => by omega⟩

theorem pubexpFn_out_of_range {n phi r : Nat} (h : r < 1 ∨ n / 2 < r) :
    pubexpFn n phi r = .error .invalidOperand := by
  unfold pubexpFn
  rw [if_pos h]

/-- In range, the least coprime `e` with `r ≤ e ≤ n - 2`, or `SearchExhausted` when there is none. -/
theorem pubexpFn_in_range {n phi r : Nat} (h1 : 1 ≤ r) (h2 : r ≤ n / 2) :
    (∃ e, pubexpFn n phi r = .ok e ∧ r ≤ e ∧ e ≤ n - 2 ∧ Nat.gcd e phi = 1 ∧
        ∀ y, r ≤ y → y < e → Nat.gcd y phi ≠ 1) ∨
      (pubexpFn n phi r = .error .searchExhausted ∧ ∀ y, r ≤ y → y ≤ n - 2 → Nat.gcd y phi ≠ 1) := by
  unfold pubexpFn
  rw [if_neg (by omega)]
  exact scanLoop_spec n r (n - 2) phi (by omega)

/-! ## `factor_fn` -/

/-- The trial division returns the least divisor of its range with its cofactor, or says that there is none. -/
theorem trialLoop_spec (fuel i last n : Nat) (h : last + 1 - i ≤ fuel) :
    (∃ x, trialLoop fuel i last n = .ok (x, n / x) ∧ i ≤ x ∧ x ≤ last ∧ x ∣ n ∧
        ∀ y, i ≤ y → y < x → ¬ y ∣ n) ∨
      (trialLoop fuel i last n = .error .unfactorableModulus ∧ ∀ y, i ≤ y → y ≤ last → ¬ y ∣ n) := by
  induction fuel generalizing i with
  | zero => exact .inr ⟨rfl, fun y h1 h2 => by omega⟩
  | succ fuel ih =>
    unfold trialLoop
    split
    · next hle =>
      split
      · next hd =>
        exact .inl ⟨i, rfl, le_rfl, hle, Nat.dvd_of_mod_eq_zero hd, fun y h1 h2 => by omega⟩
      · next hd =>
        have hnd : ¬ i ∣ n := fun hdvd => hd (Nat.mod_eq_zero_of_dvd hdvd)
        have hstep : ∀ y, i ≤ y → y ≠ i → i + 1 ≤ y := fun y h1 h2 => by omega
        obtain ⟨x, hx, hix, hxl, hdx, hmin⟩ | ⟨herr, hnone⟩ := ih (i + 1) (by omega)
        · refine .inl ⟨x, hx, by omega, hxl, hdx, fun y h1 h2 => ?_⟩
          by_cases hy : y = i
          · exact hy ▸ hnd
          · exact hmin y (hstep y h1 hy) h2
        · refine .inr ⟨herr, fun y h1 h2 => ?_⟩
          by_cases hy : y = i
          · exact hy ▸ hnd
          · exact hnone y (hstep y h1 hy) h2
    · next hle => exact .inr ⟨rfl, fun y h1 h2 => by omega⟩

/-- A composite `n ≥ 4` is split into its least divisor above 1 and the cofactor. -/
theorem factorFn_composite {n : Nat} (h4 : 4 ≤ n) (hn : ¬ n.Prime) :
    factorFn n = .ok (n.minFac, n / n.minFac) := by
  have hdvd := Nat.minFac_dvd n
  have hprime := Nat.minFac_prime (n := n) (by omega)
  have hsq := Nat.minFac_sq_le_self (by omega) hn
  have hge := hprime.two_le
  have hlast : n.minFac ≤ n - 2 := by
    have : n.minFac * n.minFac ≤ n := by rwa [← pow_two]
    by_cases h3 : n.minFac = 2
    · omega
    · have : 3 ≤ n.minFac := by omega
      have : n.minFac * 3 ≤ n := le_trans (Nat.mul_le_mul_left _ this) ‹_›
      omega
  unfold factorFn
  rw [if_neg (by omega)]
  obtain ⟨x, hx, h2x, -, hdx, hmin⟩ | ⟨-, hnone⟩ := trialLoop_spec n 2 (n - 2) n (by omega)
  · have : x = n.minFac := by
      apply le_antisymm
      · by_contra hlt
        exact hmin n.minFac hge (by omega) hdvd
      · exact Nat.minFac_le_of_dvd h2x hdx
    rw [hx, this]
  · exact absurd hdvd (hnone n.minFac hge hlast)

theorem factorFn_unfactorable {n : Nat} (h : n < 4 ∨ n.Prime) :
    factorFn n = .error .unfactorableModulus := by
  unfold factorFn
  split
  · rfl
  · next h4 =>
    have hp : n.Prime := h.resolve_left h4
    obtain ⟨x, -, h2x, hxl, hdx, -⟩ | ⟨herr, -⟩ := trialLoop_spec n 2 (n - 2) n (by omega)
    · obtain rfl | rfl := (Nat.dvd_prime hp).mp hdx <;> omega
    · exact herr

/-! ## `Overflow` -/

theorem checkFits_fits {w : Width} {v : Nat} (h : w.fits v = true) : checkFits w v = .ok v := by
  simp [checkFits, h]

theorem checkFits_overflow {w : Width} {v : Nat} (h : w.fits v = false) : checkFits w v = .error .overflow := by
  simp [checkFits, h]

end Sys2Proof.Machine
end

