-- ==== Sys2Proof/Laws/State.lean ====
section
/-! SUPPORT. One lemma per field of State per update, each true by rfl, so that no proof unfolds a record update. -/

namespace Sys2Proof.Machine

section accept
variable (c : CommandWord) (s : State)

@[simp] theorem accept_opa : (accept c s).opa = s.opa := rfl
@[simp] theorem accept_opb : (accept c s).opb = s.opb := rfl
@[simp] theorem accept_opm : (accept c s).opm = s.opm := rfl
@[simp] theorem accept_opr : (accept c s).opr = s.opr := rfl
@[simp] theorem accept_res0 : (accept c s).res0 = 0 := rfl
@[simp] theorem accept_res1 : (accept c s).res1 = 0 := rfl
@[simp] theorem accept_res2 : (accept c s).res2 = 0 := rfl
@[simp] theorem accept_res3 : (accept c s).res3 = 0 := rfl
@[simp] theorem accept_curCmd : (accept c s).curCmd = c := rfl
@[simp] theorem accept_busy : (accept c s).busy = true := rfl
@[simp] theorem accept_done : (accept c s).done = false := rfl
@[simp] theorem accept_fail : (accept c s).fail = false := rfl
@[simp] theorem accept_errCode : (accept c s).errCode = 0 := rfl
@[simp] theorem accept_ie : (accept c s).ie = s.ie := rfl
@[simp] theorem accept_schedule : (accept c s).schedule = s.schedule := rfl

end accept

section succeed
variable (r : Results) (s : State)

@[simp] theorem succeed_opa : (succeed r s).opa = s.opa := rfl
@[simp] theorem succeed_opb : (succeed r s).opb = s.opb := rfl
@[simp] theorem succeed_opm : (succeed r s).opm = s.opm := rfl
@[simp] theorem succeed_opr : (succeed r s).opr = s.opr := rfl
@[simp] theorem succeed_res0 : (succeed r s).res0 = r.r0 := rfl
@[simp] theorem succeed_res1 : (succeed r s).res1 = r.r1 := rfl
@[simp] theorem succeed_res2 : (succeed r s).res2 = r.r2 := rfl
@[simp] theorem succeed_res3 : (succeed r s).res3 = r.r3 := rfl
@[simp] theorem succeed_curCmd : (succeed r s).curCmd = s.curCmd := rfl
@[simp] theorem succeed_busy : (succeed r s).busy = false := rfl
@[simp] theorem succeed_done : (succeed r s).done = true := rfl
@[simp] theorem succeed_fail : (succeed r s).fail = s.fail := rfl
@[simp] theorem succeed_errCode : (succeed r s).errCode = s.errCode := rfl
@[simp] theorem succeed_ie : (succeed r s).ie = s.ie := rfl
@[simp] theorem succeed_schedule : (succeed r s).schedule = s.schedule := rfl

end succeed

section raise
variable (f : Failure) (s : State)

@[simp] theorem raise_opa : (raise f s).opa = s.opa := rfl
@[simp] theorem raise_opb : (raise f s).opb = s.opb := rfl
@[simp] theorem raise_opm : (raise f s).opm = s.opm := rfl
@[simp] theorem raise_opr : (raise f s).opr = s.opr := rfl
@[simp] theorem raise_res0 : (raise f s).res0 = s.res0 := rfl
@[simp] theorem raise_res1 : (raise f s).res1 = s.res1 := rfl
@[simp] theorem raise_res2 : (raise f s).res2 = s.res2 := rfl
@[simp] theorem raise_res3 : (raise f s).res3 = s.res3 := rfl
@[simp] theorem raise_curCmd : (raise f s).curCmd = s.curCmd := rfl
@[simp] theorem raise_busy : (raise f s).busy = false := rfl
@[simp] theorem raise_done : (raise f s).done = true := rfl
@[simp] theorem raise_fail : (raise f s).fail = true := rfl
@[simp] theorem raise_errCode : (raise f s).errCode = f.code := rfl
@[simp] theorem raise_ie : (raise f s).ie = s.ie := rfl
@[simp] theorem raise_schedule : (raise f s).schedule = s.schedule := rfl

end raise

section clearResults
variable (s : State)

@[simp] theorem clearResults_opa : (clearResults s).opa = s.opa := rfl
@[simp] theorem clearResults_opb : (clearResults s).opb = s.opb := rfl
@[simp] theorem clearResults_opm : (clearResults s).opm = s.opm := rfl
@[simp] theorem clearResults_opr : (clearResults s).opr = s.opr := rfl
@[simp] theorem clearResults_res0 : (clearResults s).res0 = 0 := rfl
@[simp] theorem clearResults_res1 : (clearResults s).res1 = 0 := rfl
@[simp] theorem clearResults_res2 : (clearResults s).res2 = 0 := rfl
@[simp] theorem clearResults_res3 : (clearResults s).res3 = 0 := rfl
@[simp] theorem clearResults_curCmd : (clearResults s).curCmd = 0x0F := rfl
@[simp] theorem clearResults_busy : (clearResults s).busy = s.busy := rfl
@[simp] theorem clearResults_done : (clearResults s).done = false := rfl
@[simp] theorem clearResults_fail : (clearResults s).fail = false := rfl
@[simp] theorem clearResults_errCode : (clearResults s).errCode = 0 := rfl
@[simp] theorem clearResults_ie : (clearResults s).ie = s.ie := rfl
@[simp] theorem clearResults_schedule : (clearResults s).schedule = s.schedule := rfl

end clearResults

section resetBlock
variable (s : State)

@[simp] theorem resetBlock_opa : (resetBlock s).opa = 0 := rfl
@[simp] theorem resetBlock_opb : (resetBlock s).opb = 0 := rfl
@[simp] theorem resetBlock_opm : (resetBlock s).opm = 0 := rfl
@[simp] theorem resetBlock_opr : (resetBlock s).opr = 0 := rfl
@[simp] theorem resetBlock_res0 : (resetBlock s).res0 = 0 := rfl
@[simp] theorem resetBlock_res1 : (resetBlock s).res1 = 0 := rfl
@[simp] theorem resetBlock_res2 : (resetBlock s).res2 = 0 := rfl
@[simp] theorem resetBlock_res3 : (resetBlock s).res3 = 0 := rfl
@[simp] theorem resetBlock_curCmd : (resetBlock s).curCmd = 0 := rfl
@[simp] theorem resetBlock_busy : (resetBlock s).busy = false := rfl
@[simp] theorem resetBlock_done : (resetBlock s).done = false := rfl
@[simp] theorem resetBlock_fail : (resetBlock s).fail = false := rfl
@[simp] theorem resetBlock_errCode : (resetBlock s).errCode = 0 := rfl
@[simp] theorem resetBlock_ie : (resetBlock s).ie = false := rfl
@[simp] theorem resetBlock_schedule : (resetBlock s).schedule = s.schedule := rfl

end resetBlock

section withSchedule
variable (s : State) (rest : List Event)

@[simp] theorem withSchedule_opa : (s.withSchedule rest).opa = s.opa := rfl
@[simp] theorem withSchedule_opb : (s.withSchedule rest).opb = s.opb := rfl
@[simp] theorem withSchedule_opm : (s.withSchedule rest).opm = s.opm := rfl
@[simp] theorem withSchedule_opr : (s.withSchedule rest).opr = s.opr := rfl
@[simp] theorem withSchedule_res0 : (s.withSchedule rest).res0 = s.res0 := rfl
@[simp] theorem withSchedule_res1 : (s.withSchedule rest).res1 = s.res1 := rfl
@[simp] theorem withSchedule_res2 : (s.withSchedule rest).res2 = s.res2 := rfl
@[simp] theorem withSchedule_res3 : (s.withSchedule rest).res3 = s.res3 := rfl
@[simp] theorem withSchedule_curCmd : (s.withSchedule rest).curCmd = s.curCmd := rfl
@[simp] theorem withSchedule_busy : (s.withSchedule rest).busy = s.busy := rfl
@[simp] theorem withSchedule_done : (s.withSchedule rest).done = s.done := rfl
@[simp] theorem withSchedule_fail : (s.withSchedule rest).fail = s.fail := rfl
@[simp] theorem withSchedule_errCode : (s.withSchedule rest).errCode = s.errCode := rfl
@[simp] theorem withSchedule_ie : (s.withSchedule rest).ie = s.ie := rfl
@[simp] theorem withSchedule_schedule : (s.withSchedule rest).schedule = rest := rfl

end withSchedule

section completedOk
variable (s : State) (r0 r1 r2 r3 : Nat)

@[simp] theorem completedOk_opa : (s.completedOk r0 r1 r2 r3).opa = s.opa := rfl
@[simp] theorem completedOk_opb : (s.completedOk r0 r1 r2 r3).opb = s.opb := rfl
@[simp] theorem completedOk_opm : (s.completedOk r0 r1 r2 r3).opm = s.opm := rfl
@[simp] theorem completedOk_opr : (s.completedOk r0 r1 r2 r3).opr = s.opr := rfl
@[simp] theorem completedOk_res0 : (s.completedOk r0 r1 r2 r3).res0 = r0 := rfl
@[simp] theorem completedOk_res1 : (s.completedOk r0 r1 r2 r3).res1 = r1 := rfl
@[simp] theorem completedOk_res2 : (s.completedOk r0 r1 r2 r3).res2 = r2 := rfl
@[simp] theorem completedOk_res3 : (s.completedOk r0 r1 r2 r3).res3 = r3 := rfl
@[simp] theorem completedOk_curCmd : (s.completedOk r0 r1 r2 r3).curCmd = s.curCmd := rfl
@[simp] theorem completedOk_busy : (s.completedOk r0 r1 r2 r3).busy = false := rfl
@[simp] theorem completedOk_done : (s.completedOk r0 r1 r2 r3).done = true := rfl
@[simp] theorem completedOk_fail : (s.completedOk r0 r1 r2 r3).fail = s.fail := rfl
@[simp] theorem completedOk_errCode : (s.completedOk r0 r1 r2 r3).errCode = s.errCode := rfl
@[simp] theorem completedOk_ie : (s.completedOk r0 r1 r2 r3).ie = s.ie := rfl
@[simp] theorem completedOk_schedule : (s.completedOk r0 r1 r2 r3).schedule = s.schedule := rfl

end completedOk

section completedErr
variable (s : State) (code : ErrCode)

@[simp] theorem completedErr_opa : (s.completedErr code).opa = s.opa := rfl
@[simp] theorem completedErr_opb : (s.completedErr code).opb = s.opb := rfl
@[simp] theorem completedErr_opm : (s.completedErr code).opm = s.opm := rfl
@[simp] theorem completedErr_opr : (s.completedErr code).opr = s.opr := rfl
@[simp] theorem completedErr_res0 : (s.completedErr code).res0 = s.res0 := rfl
@[simp] theorem completedErr_res1 : (s.completedErr code).res1 = s.res1 := rfl
@[simp] theorem completedErr_res2 : (s.completedErr code).res2 = s.res2 := rfl
@[simp] theorem completedErr_res3 : (s.completedErr code).res3 = s.res3 := rfl
@[simp] theorem completedErr_curCmd : (s.completedErr code).curCmd = s.curCmd := rfl
@[simp] theorem completedErr_busy : (s.completedErr code).busy = false := rfl
@[simp] theorem completedErr_done : (s.completedErr code).done = true := rfl
@[simp] theorem completedErr_fail : (s.completedErr code).fail = true := rfl
@[simp] theorem completedErr_errCode : (s.completedErr code).errCode = code := rfl
@[simp] theorem completedErr_ie : (s.completedErr code).ie = s.ie := rfl
@[simp] theorem completedErr_schedule : (s.completedErr code).schedule = s.schedule := rfl

end completedErr

section setOperand
variable (r : Reg) (v : Nat) (s : State)

@[simp] theorem setOperand_res0 : (setOperand r v s).res0 = s.res0 := by cases r <;> rfl
@[simp] theorem setOperand_res1 : (setOperand r v s).res1 = s.res1 := by cases r <;> rfl
@[simp] theorem setOperand_res2 : (setOperand r v s).res2 = s.res2 := by cases r <;> rfl
@[simp] theorem setOperand_res3 : (setOperand r v s).res3 = s.res3 := by cases r <;> rfl
@[simp] theorem setOperand_curCmd : (setOperand r v s).curCmd = s.curCmd := by cases r <;> rfl
@[simp] theorem setOperand_busy : (setOperand r v s).busy = s.busy := by cases r <;> rfl
@[simp] theorem setOperand_done : (setOperand r v s).done = s.done := by cases r <;> rfl
@[simp] theorem setOperand_fail : (setOperand r v s).fail = s.fail := by cases r <;> rfl
@[simp] theorem setOperand_errCode : (setOperand r v s).errCode = s.errCode := by cases r <;> rfl
@[simp] theorem setOperand_ie : (setOperand r v s).ie = s.ie := by cases r <;> rfl
@[simp] theorem setOperand_schedule : (setOperand r v s).schedule = s.schedule := by cases r <;> rfl
@[simp] theorem setOperand_opa : (setOperand r v s).opa = if r = .opa then v else s.opa := by cases r <;> rfl
@[simp] theorem setOperand_opb : (setOperand r v s).opb = if r = .opb then v else s.opb := by cases r <;> rfl
@[simp] theorem setOperand_opm : (setOperand r v s).opm = if r = .opm then v else s.opm := by cases r <;> rfl
@[simp] theorem setOperand_opr : (setOperand r v s).opr = if r = .opr then v else s.opr := by cases r <;> rfl

end setOperand

end Sys2Proof.Machine
end

