-- ==== Sys2Proof/Laws/Exec.lean ====
section
/-! SUPPORT. What the outcomes and the meanings can be: one lemma that says every run command commits the outcome of
`Exec`, and what that outcome can hold. -/

namespace Sys2Proof.Machine

@[simp] theorem finish_ok (r : Results) (s : State) : finish (.ok r) s = .next (succeed r s) := rfl
@[simp] theorem finish_error (f : Failure) (s : State) : finish (.error f) s = .next (raise f s) := rfl

theorem succeed_eq_completedOk (r : Results) (s : State) : succeed r s = s.completedOk r.r0 r.r1 r.r2 r.r3 := rfl
theorem raise_eq_completedErr (f : Failure) (s : State) : raise f s = s.completedErr f.code := rfl

/-- The dispatch of R61: the meaning of a run command commits `Exec` of its word. -/
theorem exec_eq_finish {i : Instr} (hi : i ≠ .clear) (s : State) :
    exec i s = finish (execOutcome Config.width (encodeWord i) s.opa s.opb s.opm s.opr) s := by
  cases i <;> first | rfl | exact absurd rfl hi

theorem execOutcome_encodeWord (w : Width) (i : Instr) (a b m r : Nat) :
    execOutcome w (encodeWord i) a b m r =
      match i with
      | .gcd => gcdOutcome a b
      | .modinv => modinvOutcome a m
      | .modpow => modpowOutcome a b m
      | .totient => totientOutcome w a b
      | .pubexp => pubexpOutcome w a b r
      | .keygen => keygenOutcome w a b r
      | .factor => factorOutcome m
      | .crack => crackOutcome a m
      | .clear => .ok ⟨0, 0, 0, 0⟩ := by
  cases i <;> rfl

theorem execClear_busy {s : State} (h : s.busy = true) : execClear s = .next s := by simp [execClear, h]

theorem execClear_idle {s : State} (h : s.busy = false) : execClear s = .next (clearResults s) := by
  simp [execClear, h]

/-! ## Each arm's outcome, by cases -/

theorem gcdOutcome_eq (a b : Nat) : gcdOutcome a b = .ok ⟨Nat.gcd a b, 0, 0, 0⟩ := by
  rw [gcdOutcome, gcdFn_eq_gcd]

theorem modinvOutcome_cases (e m : Nat) :
    (m = 0 ∧ modinvOutcome e m = .error .invalidOperand) ∨
      (m ≠ 0 ∧ Nat.gcd e m ≠ 1 ∧ modinvOutcome e m = .error .notInvertible) ∨
      (m ≠ 0 ∧ Nat.gcd e m = 1 ∧ ∃ d, modinvOutcome e m = .ok ⟨d, 0, 0, 0⟩ ∧ d < m ∧ (e * d) % m = 1 % m) := by
  by_cases hm : m = 0
  · subst hm
    exact .inl ⟨rfl, rfl⟩
  · by_cases hg : Nat.gcd e m = 1
    · obtain ⟨d, hd, hlt, hinv⟩ := modinvFn_coprime hm hg
      exact .inr (.inr ⟨hm, hg, d, by rw [modinvOutcome, hd]; rfl, hlt, hinv⟩)
    · exact .inr (.inl ⟨hm, hg, by rw [modinvOutcome, modinvFn_not_coprime hm hg]; rfl⟩)

theorem modpowOutcome_cases (b k m : Nat) :
    (m = 0 ∧ modpowOutcome b k m = .error .invalidOperand) ∨
      (m ≠ 0 ∧ modpowOutcome b k m = .ok ⟨b ^ k % m, 0, 0, 0⟩) := by
  by_cases hm : m = 0
  · subst hm
    exact .inl ⟨rfl, rfl⟩
  · exact .inr ⟨hm, by rw [modpowOutcome, modpowFn_pos b k hm]; rfl⟩

theorem large_of_not_small {p q : Nat} (h : ¬ (p = 0 ∨ q = 0 ∨ (p - 1) * (q - 1) ≤ 127)) :
    127 < (p - 1) * (q - 1) := by
  rw [not_or, not_or] at h
  exact not_le.mp h.2.2

theorem totientOutcome_cases (w : Width) (p q : Nat) :
    ((p = 0 ∨ q = 0 ∨ (p - 1) * (q - 1) ≤ 127) ∧ totientOutcome w p q = .error .invalidKeyMaterial) ∨
      (127 < (p - 1) * (q - 1) ∧ w.fits ((p - 1) * (q - 1)) = false ∧
        totientOutcome w p q = .error .overflow) ∨
      (127 < (p - 1) * (q - 1) ∧ w.fits ((p - 1) * (q - 1)) = true ∧
        totientOutcome w p q = .ok ⟨0, 0, 0, (p - 1) * (q - 1)⟩) := by
  by_cases hsmall : p = 0 ∨ q = 0 ∨ (p - 1) * (q - 1) ≤ 127
  · exact .inl ⟨hsmall, by rw [totientOutcome, totientFn_small hsmall]; rfl⟩
  · have hlarge := large_of_not_small hsmall
    cases hfit : w.fits ((p - 1) * (q - 1))
    · exact .inr (.inl ⟨hlarge, rfl, by
        simp [totientOutcome, totientFn_large hlarge, checkFits_overflow hfit, bind, Except.bind]⟩)
    · exact .inr (.inr ⟨hlarge, rfl, by
        simp [totientOutcome, totientFn_large hlarge, checkFits_fits hfit, bind, Except.bind, pure, Except.pure]⟩)

/-- `PUBEXP` and `KEYGEN`, in the order of their tests (R103): the three failures before the scan; then the least
coprime exponent with its inverse, or `SearchExhausted`. The third step of `KEYGEN` never fails (R84). -/
theorem keyOutcome_cases (w : Width) (p q r : Nat) :
    ((p = 0 ∨ q = 0 ∨ (p - 1) * (q - 1) ≤ 127) ∧
      pubexpOutcome w p q r = .error .invalidKeyMaterial ∧ keygenOutcome w p q r = .error .invalidKeyMaterial) ∨
    (127 < (p - 1) * (q - 1) ∧ w.fits (p * q) = false ∧
      pubexpOutcome w p q r = .error .overflow ∧ keygenOutcome w p q r = .error .overflow) ∨
    (127 < (p - 1) * (q - 1) ∧ w.fits (p * q) = true ∧ (r < 1 ∨ p * q / 2 < r) ∧
      pubexpOutcome w p q r = .error .invalidOperand ∧ keygenOutcome w p q r = .error .invalidOperand) ∨
    (127 < (p - 1) * (q - 1) ∧ w.fits (p * q) = true ∧ 1 ≤ r ∧ r ≤ p * q / 2 ∧
      (∀ y, r ≤ y → y ≤ p * q - 2 → Nat.gcd y ((p - 1) * (q - 1)) ≠ 1) ∧
      pubexpOutcome w p q r = .error .searchExhausted ∧ keygenOutcome w p q r = .error .searchExhausted) ∨
    (127 < (p - 1) * (q - 1) ∧ w.fits (p * q) = true ∧ 1 ≤ r ∧ r ≤ p * q / 2 ∧
      ∃ e d, r ≤ e ∧ e ≤ p * q - 2 ∧ Nat.gcd e ((p - 1) * (q - 1)) = 1 ∧
        (∀ y, r ≤ y → y < e → Nat.gcd y ((p - 1) * (q - 1)) ≠ 1) ∧
        d < (p - 1) * (q - 1) ∧ (e * d) % ((p - 1) * (q - 1)) = 1 % ((p - 1) * (q - 1)) ∧
        pubexpOutcome w p q r = .ok ⟨e, p * q, 0, (p - 1) * (q - 1)⟩ ∧
        keygenOutcome w p q r = .ok ⟨e, p * q, d, (p - 1) * (q - 1)⟩) := by
  by_cases hs : p = 0 ∨ q = 0 ∨ (p - 1) * (q - 1) ≤ 127
  · refine .inl ⟨hs, ?_⟩
    simp [pubexpOutcome, keygenOutcome, totientFn_small hs, bind, Except.bind]
  have hl := large_of_not_small hs
  refine .inr ?_
  cases hf : w.fits (p * q)
  · refine .inl ⟨hl, rfl, ?_⟩
    simp [pubexpOutcome, keygenOutcome, totientFn_large hl, checkFits_overflow hf, bind, Except.bind]
  refine .inr ?_
  by_cases hr : r < 1 ∨ p * q / 2 < r
  · refine .inl ⟨hl, rfl, hr, ?_⟩
    simp [pubexpOutcome, keygenOutcome, totientFn_large hl, checkFits_fits hf, pubexpFn_out_of_range hr, bind,
      Except.bind]
  refine .inr ?_
  obtain ⟨h1, h2⟩ : 1 ≤ r ∧ r ≤ p * q / 2 := by
    rw [not_or] at hr
    exact ⟨not_lt.mp hr.1, not_lt.mp hr.2⟩
  obtain ⟨e, he, hre, hel, hg, hmin⟩ | ⟨herr, hnone⟩ :=
    pubexpFn_in_range (n := p * q) (phi := (p - 1) * (q - 1)) h1 h2
  · obtain ⟨d, hd, hdlt, hinv⟩ := modinvFn_coprime (e := e) (m := (p - 1) * (q - 1)) (by omega) hg
    refine .inr ⟨hl, rfl, h1, h2, e, d, hre, hel, hg, hmin, hdlt, hinv, ?_, ?_⟩
    · simp [pubexpOutcome, totientFn_large hl, checkFits_fits hf, he, bind, Except.bind, pure, Except.pure]
    · simp [keygenOutcome, totientFn_large hl, checkFits_fits hf, he, hd, bind, Except.bind, pure, Except.pure]
  · refine .inl ⟨hl, rfl, h1, h2, hnone, ?_, ?_⟩
    · simp [pubexpOutcome, totientFn_large hl, checkFits_fits hf, herr, bind, Except.bind]
    · simp [keygenOutcome, totientFn_large hl, checkFits_fits hf, herr, bind, Except.bind]

theorem factorOutcome_cases (n : Nat) :
    ((n < 4 ∨ n.Prime) ∧ factorOutcome n = .error .unfactorableModulus) ∨
      (4 ≤ n ∧ ¬ n.Prime ∧ factorOutcome n = .ok ⟨n.minFac, n / n.minFac, 0, 0⟩) := by
  by_cases h : n < 4 ∨ n.Prime
  · exact .inl ⟨h, by rw [factorOutcome, factorFn_unfactorable h]; rfl⟩
  · have h4 : 4 ≤ n := by
      have : ¬ n < 4 := fun hlt => h (.inl hlt)
      omega
    have hp : ¬ n.Prime := fun hp => h (.inr hp)
    exact .inr ⟨h4, hp, by rw [factorOutcome, factorFn_composite h4 hp]; rfl⟩

theorem crackOutcome_cases (e n : Nat) :
    ((n < 4 ∨ n.Prime) ∧ crackOutcome e n = .error .unfactorableModulus) ∨
      (4 ≤ n ∧ ¬ n.Prime ∧ Nat.gcd e ((n.minFac - 1) * (n / n.minFac - 1)) ≠ 1 ∧
        crackOutcome e n = .error .notInvertible) ∨
      (4 ≤ n ∧ ¬ n.Prime ∧ Nat.gcd e ((n.minFac - 1) * (n / n.minFac - 1)) = 1 ∧
        ∃ d, crackOutcome e n =
            .ok ⟨n.minFac, n / n.minFac, d, (n.minFac - 1) * (n / n.minFac - 1)⟩ ∧
          d < (n.minFac - 1) * (n / n.minFac - 1) ∧
          (e * d) % ((n.minFac - 1) * (n / n.minFac - 1)) = 1 % ((n.minFac - 1) * (n / n.minFac - 1))) := by
  obtain ⟨h, -⟩ | ⟨h4, hp, -⟩ := factorOutcome_cases n
  · exact .inl ⟨h, by rw [crackOutcome, factorFn_unfactorable h]; rfl⟩
  · have hpos : (n.minFac - 1) * (n / n.minFac - 1) ≠ 0 := by
      have h2 := (Nat.minFac_prime (n := n) (by omega)).two_le
      have hle : n.minFac * n.minFac ≤ n := by
        rw [← pow_two]
        exact Nat.minFac_sq_le_self (by omega) hp
      have : n.minFac ≤ n / n.minFac := (Nat.le_div_iff_mul_le (by omega)).mpr hle
      exact Nat.mul_ne_zero (by omega) (by omega)
    by_cases hg : Nat.gcd e ((n.minFac - 1) * (n / n.minFac - 1)) = 1
    · obtain ⟨d, hd, hlt, hinv⟩ := modinvFn_coprime hpos hg
      refine .inr (.inr ⟨h4, hp, hg, d, ?_, hlt, hinv⟩)
      simp [crackOutcome, factorFn_composite h4 hp, hd, bind, Except.bind, pure, Except.pure]
    · refine .inr (.inl ⟨h4, hp, hg, ?_⟩)
      simp [crackOutcome, factorFn_composite h4 hp, modinvFn_not_coprime hpos hg, bind, Except.bind]

/-- The least divisor of a composite and its cofactor: `2 ≤ p ≤ q`, `p * q = n`, and the bare product of R92 is
positive and below `n`. -/
theorem minFac_pair {n : Nat} (h4 : 4 ≤ n) (hp : ¬ n.Prime) :
    2 ≤ n.minFac ∧ n.minFac ≤ n / n.minFac ∧ n.minFac * (n / n.minFac) = n ∧
      0 < (n.minFac - 1) * (n / n.minFac - 1) ∧ (n.minFac - 1) * (n / n.minFac - 1) < n := by
  have h2 := (Nat.minFac_prime (n := n) (by omega)).two_le
  have hle : n.minFac * n.minFac ≤ n := by
    rw [← pow_two]
    exact Nat.minFac_sq_le_self (by omega) hp
  have hpq : n.minFac ≤ n / n.minFac := (Nat.le_div_iff_mul_le (by omega)).mpr hle
  have hmul : n.minFac * (n / n.minFac) = n := Nat.mul_div_cancel' (Nat.minFac_dvd n)
  refine ⟨h2, hpq, hmul, Nat.mul_pos (by omega) (by omega), ?_⟩
  calc (n.minFac - 1) * (n / n.minFac - 1) ≤ (n.minFac - 1) * (n / n.minFac) :=
        Nat.mul_le_mul_left _ (Nat.sub_le _ _)
    _ < n.minFac * (n / n.minFac) := Nat.mul_lt_mul_of_pos_right (by omega) (by omega)
    _ = n := hmul

/-! ## What every outcome satisfies -/

/-- The failures a command can report are those of R102. -/
theorem execOutcome_error_mem {w : Width} {i : Instr} {a b m r : Nat} {f : Failure}
    (h : execOutcome w (encodeWord i) a b m r = .error f) : f.code ∈ reportableCodes i := by
  rw [execOutcome_encodeWord] at h
  cases i with
  | gcd => cases h
  | modinv =>
    obtain ⟨-, h'⟩ | ⟨-, -, h'⟩ | ⟨-, -, d, h', -⟩ := modinvOutcome_cases a m <;>
      (simp only [h'] at h; cases h; try decide)
  | modpow =>
    obtain ⟨-, h'⟩ | ⟨-, h'⟩ := modpowOutcome_cases a b m <;> (simp only [h'] at h; cases h; try decide)
  | totient =>
    obtain ⟨-, h'⟩ | ⟨-, -, h'⟩ | ⟨-, -, h'⟩ := totientOutcome_cases w a b <;>
      (simp only [h'] at h; cases h; try decide)
  | pubexp =>
    obtain ⟨-, h', -⟩ | ⟨-, -, h', -⟩ | ⟨-, -, -, h', -⟩ | ⟨-, -, -, -, -, h', -⟩ |
      ⟨-, -, -, -, e, d, -, -, -, -, -, -, h', -⟩ := keyOutcome_cases w a b r <;>
      (simp only [h'] at h; cases h; try decide)
  | keygen =>
    obtain ⟨-, -, h'⟩ | ⟨-, -, -, h'⟩ | ⟨-, -, -, -, h'⟩ | ⟨-, -, -, -, -, -, h'⟩ |
      ⟨-, -, -, -, e, d, -, -, -, -, -, -, -, h'⟩ := keyOutcome_cases w a b r <;>
      (simp only [h'] at h; cases h; try decide)
  | factor =>
    obtain ⟨-, h'⟩ | ⟨-, -, h'⟩ := factorOutcome_cases m <;> (simp only [h'] at h; cases h; try decide)
  | crack =>
    obtain ⟨-, h'⟩ | ⟨-, -, -, h'⟩ | ⟨-, -, -, d, h', -⟩ := crackOutcome_cases a m <;>
      (simp only [h'] at h; cases h; try decide)
  | clear => cases h

/-- Results fit the width the operands fit (R7, R70 item 7). -/
theorem execOutcome_fits {w : Width} {i : Instr} {a b m r : Nat} {res : Results}
    (ha : w.fits a = true) (hb : w.fits b = true) (hm : w.fits m = true)
    (h : execOutcome w (encodeWord i) a b m r = .ok res) :
    w.fits res.r0 = true ∧ w.fits res.r1 = true ∧ w.fits res.r2 = true ∧ w.fits res.r3 = true := by
  have h0 : w.fits 0 = true := w.fits_of_lt (by decide)
  rw [execOutcome_encodeWord] at h
  cases i with
  | gcd =>
    simp only [gcdOutcome_eq] at h
    cases h
    refine ⟨?_, h0, h0, h0⟩
    by_cases hz : a = 0
    · simpa [hz] using hb
    · exact w.fits_of_le (Nat.gcd_le_left b (by omega)) ha
  | modinv =>
    obtain ⟨-, h'⟩ | ⟨-, -, h'⟩ | ⟨-, -, d, h', hlt, -⟩ := modinvOutcome_cases a m <;>
      (simp only [h'] at h; cases h)
    exact ⟨w.fits_of_le hlt.le hm, h0, h0, h0⟩
  | modpow =>
    obtain ⟨-, h'⟩ | ⟨hpos, h'⟩ := modpowOutcome_cases a b m <;> (simp only [h'] at h; cases h)
    exact ⟨w.fits_of_le (Nat.mod_lt _ (by omega)).le hm, h0, h0, h0⟩
  | totient =>
    obtain ⟨-, h'⟩ | ⟨-, -, h'⟩ | ⟨-, hf, h'⟩ := totientOutcome_cases w a b <;>
      (simp only [h'] at h; cases h)
    exact ⟨h0, h0, h0, hf⟩
  | pubexp =>
    obtain ⟨-, h', -⟩ | ⟨-, -, h', -⟩ | ⟨-, -, -, h', -⟩ | ⟨-, -, -, -, -, h', -⟩ |
      ⟨hl, hf, -, -, e, d, -, hel, -, -, hd, -, h', -⟩ := keyOutcome_cases w a b r <;>
      (simp only [h'] at h; cases h)
    have hlt := totient_lt_product hl
    dsimp only
    exact ⟨w.fits_of_le (by omega) hf, hf, h0, w.fits_of_le (by omega) hf⟩
  | keygen =>
    obtain ⟨-, -, h'⟩ | ⟨-, -, -, h'⟩ | ⟨-, -, -, -, h'⟩ | ⟨-, -, -, -, -, -, h'⟩ |
      ⟨hl, hf, -, -, e, d, -, hel, -, -, hd, -, -, h'⟩ := keyOutcome_cases w a b r <;>
      (simp only [h'] at h; cases h)
    have hlt := totient_lt_product hl
    dsimp only
    exact ⟨w.fits_of_le (by omega) hf, hf, w.fits_of_le (by omega) hf, w.fits_of_le (by omega) hf⟩
  | factor =>
    obtain ⟨-, h'⟩ | ⟨h4, -, h'⟩ := factorOutcome_cases m <;> (simp only [h'] at h; cases h)
    exact ⟨w.fits_of_le (Nat.minFac_le (by omega)) hm, w.fits_of_le (Nat.div_le_self _ _) hm, h0, h0⟩
  | crack =>
    obtain ⟨-, h'⟩ | ⟨-, -, -, h'⟩ | ⟨h4, hp, -, d, h', hd, -⟩ := crackOutcome_cases a m <;>
      (simp only [h'] at h; cases h)
    obtain ⟨-, -, -, -, hlt⟩ := minFac_pair h4 hp
    dsimp only
    exact ⟨w.fits_of_le (Nat.minFac_le (by omega)) hm, w.fits_of_le (Nat.div_le_self _ _) hm,
      w.fits_of_le (by omega) hm, w.fits_of_le (by omega) hm⟩
  | clear => cases h; exact ⟨h0, h0, h0, h0⟩

end Sys2Proof.Machine
end

