-- ==== Sys2Proof/Laws/PerInstr.lean ====
section
/-! SUPPORT. Families of statements about every instruction as syntax, one lemma per constructor. -/

namespace Sys2Proof.Laws.RoundTrip

/-- The instruction is well formed, its words decode to it with nothing left over, and its word is a row of the
opcode map with bits 7..4 zero (R50, R51). -/
def Statement (i : Instr) : Prop :=
  i.wf = true ∧ decode (encode i) = .ok (i, []) ∧ ⟨encodeWord i, 0xFF, i⟩ ∈ opcodeRows ∧ (encodeWord i).toNat < 16

theorem gcd : Statement .gcd := by unfold Statement; exact ⟨rfl, rfl, by decide, by decide⟩
theorem modinv : Statement .modinv := by unfold Statement; exact ⟨rfl, rfl, by decide, by decide⟩
theorem modpow : Statement .modpow := by unfold Statement; exact ⟨rfl, rfl, by decide, by decide⟩
theorem totient : Statement .totient := by unfold Statement; exact ⟨rfl, rfl, by decide, by decide⟩
theorem pubexp : Statement .pubexp := by unfold Statement; exact ⟨rfl, rfl, by decide, by decide⟩
theorem keygen : Statement .keygen := by unfold Statement; exact ⟨rfl, rfl, by decide, by decide⟩
theorem factor : Statement .factor := by unfold Statement; exact ⟨rfl, rfl, by decide, by decide⟩
theorem crack : Statement .crack := by unfold Statement; exact ⟨rfl, rfl, by decide, by decide⟩
theorem clear : Statement .clear := by unfold Statement; exact ⟨rfl, rfl, by decide, by decide⟩

end Sys2Proof.Laws.RoundTrip
end

