-- ==== Sys2Proof/Laws/Step.lean ====
section
/-! SUPPORT. What a step can do, said once: every step answers a next state, and that state is one of the cases of
`StepKind`. Invariants are derived from it without unfolding `step`. -/

namespace Sys2Proof.Machine

/-! ## The completed state -/

section afterCompletion
variable (s : State) (w : Width) (rest : List Event)

@[simp] theorem afterCompletion_busy : (s.afterCompletion w).busy = false := by
  unfold State.afterCompletion; split <;> rfl

@[simp] theorem afterCompletion_done : (s.afterCompletion w).done = true := by
  unfold State.afterCompletion; split <;> rfl

@[simp] theorem afterCompletion_ie : (s.afterCompletion w).ie = s.ie := by
  unfold State.afterCompletion; split <;> rfl

@[simp] theorem afterCompletion_curCmd : (s.afterCompletion w).curCmd = s.curCmd := by
  unfold State.afterCompletion; split <;> rfl

@[simp] theorem afterCompletion_schedule : (s.afterCompletion w).schedule = s.schedule := by
  unfold State.afterCompletion; split <;> rfl

@[simp] theorem afterCompletion_opa : (s.afterCompletion w).opa = s.opa := by
  unfold State.afterCompletion; split <;> rfl

@[simp] theorem afterCompletion_opb : (s.afterCompletion w).opb = s.opb := by
  unfold State.afterCompletion; split <;> rfl

@[simp] theorem afterCompletion_opm : (s.afterCompletion w).opm = s.opm := by
  unfold State.afterCompletion; split <;> rfl

@[simp] theorem afterCompletion_opr : (s.afterCompletion w).opr = s.opr := by
  unfold State.afterCompletion; split <;> rfl

/-- A completion does not look at the schedule. -/
theorem afterCompletion_withSchedule :
    (s.withSchedule rest).afterCompletion w = (s.afterCompletion w).withSchedule rest := by
  simp only [State.afterCompletion, withSchedule_curCmd, withSchedule_opa, withSchedule_opb, withSchedule_opm,
    withSchedule_opr]
  cases execOutcome w s.curCmd s.opa s.opb s.opm s.opr <;> rfl

end afterCompletion

/-! ## The parts of a step -/

@[simp] theorem nextAction_nil {s : State} (h : s.schedule = []) :
    nextAction s = if s.busy then completion s else .become s := by simp [nextAction, h]

@[simp] theorem nextAction_transact {s : State} {req : Request} {rest : List Event}
    (h : s.schedule = .transact req :: rest) : nextAction s = hostTransaction req (s.withSchedule rest) := by
  simp [nextAction, h]

@[simp] theorem nextAction_complete {s : State} {rest : List Event} (h : s.schedule = .complete :: rest) :
    nextAction s = if s.busy then completion (s.withSchedule rest) else .become (s.withSchedule rest) := by
  simp [nextAction, h]

@[simp] theorem nextAction_wait {s : State} {rest : List Event} (h : s.schedule = .wait :: rest) :
    nextAction s = if s.busy then completion s else .become (s.withSchedule rest) := by
  simp [nextAction, h]

@[simp] theorem nextAction_quiet {s : State} {rest : List Event} (h : s.schedule = .quiet :: rest) :
    nextAction s = .become (s.withSchedule rest) := by simp [nextAction, h]

@[simp] theorem nextAction_reset {s : State} {p : Option Request} {rest : List Event}
    (h : s.schedule = .reset p :: rest) : nextAction s = .become (resetBlock (s.withSchedule rest)) := by
  simp [nextAction, h]

theorem step_of_become {s t : State} (h : nextAction s = .become t) : step s = .next t := by simp [step, h]

theorem step_of_run {s t : State} {i : Instr} (h : nextAction s = .run i t) : step s = exec i t := by simp [step, h]

/-- A run command's meaning, on a state whose `CUR_CMD` is its word, is the completion of that state. -/
theorem exec_eq_afterCompletion {i : Instr} (hi : i ≠ .clear) {s : State} (hc : s.curCmd = encodeWord i) :
    exec i s = .next (s.afterCompletion Config.width) := by
  rw [exec_eq_finish hi, State.afterCompletion, hc]
  cases execOutcome Config.width (encodeWord i) s.opa s.opb s.opm s.opr <;> rfl

/-- The completion step: success or failure of the command in `CUR_CMD` (R62, R104, R98). -/
theorem step_of_completion {s u : State} (h : nextAction s = completion u) (hc : u.curCmd ≠ 0x0F) :
    step s = .next (u.afterCompletion Config.width) := by
  obtain ⟨i, hdec, henc⟩ | ⟨hdec, -⟩ := decodeWord_cases u.curCmd
  · have hi : i ≠ .clear := by
      rintro rfl
      exact hc henc.symm
    rw [step_of_run (i := i) (t := u) (by rw [h, completion, hdec])]
    exact exec_eq_afterCompletion hi henc.symm
  · rw [step_of_become (t := raise .illegalCommand u) (by rw [h, completion, hdec])]
    simp [State.afterCompletion, execOutcome, hdec, raise_eq_completedErr]

/-- `CUR_CMD = 0x0F` with `BUSY = 1` occurs in no run (R61); there the completion step changes nothing (log entry
9). -/
theorem step_of_completion_clear {s u : State} (h : nextAction s = completion u) (hb : u.busy = true)
    (hc : u.curCmd = 0x0F) : step s = .next u := by
  have hdec : decodeWord u.curCmd = .ok .clear := by rw [hc]; rfl
  rw [step_of_run (i := .clear) (t := u) (by rw [h, completion, hdec])]
  exact execClear_busy hb

theorem decodeWord_clear_iff (c : CommandWord) : decodeWord c = .ok .clear ↔ c = 0x0F :=
  decodeWord_eq_ok_iff c .clear

theorem writeCmd_clear {v : Nat} {s : State} (h : commandWordOf v = 0x0F) : writeCmd v s = .run .clear s := by
  simp [writeCmd, (decodeWord_clear_iff _).mpr h]

theorem writeCmd_other {v : Nat} {s : State} (h : commandWordOf v ≠ 0x0F) :
    writeCmd v s = if s.busy then .become s else .become (accept (commandWordOf v) s) := by
  unfold writeCmd
  split
  · next hd => exact absurd ((decodeWord_clear_iff _).mp hd) h
  · rfl

/-- Which register an address names, the other way round (R10). -/
theorem regAt_regAddr (r : Reg) : regAt (regAddr r) = some r := by cases r <;> rfl

theorem regAt_eq_some_iff (addr : RegAddr) (r : Reg) : regAt addr = some r ↔ addr = regAddr r := by
  refine ⟨fun h => ?_, fun h => h ▸ regAt_regAddr r⟩
  have key : ∀ n < 16, ∀ r, regAt (BitVec.ofNat 4 n) = some r → BitVec.ofNat 4 n = regAddr r := by
    intro n hn r
    interval_cases n <;> cases r <;> decide
  have := key addr.toNat addr.isLt r
  simpa using this (by simpa using h)

theorem regAt_eq_none_iff (addr : RegAddr) : regAt addr = none ↔ 12 ≤ addr.toNat := by
  have key : ∀ n < 16, regAt (BitVec.ofNat 4 n) = none ↔ 12 ≤ n := by
    intro n hn
    interval_cases n <;> decide
  simpa using key addr.toNat addr.isLt

/-! ## The cases of a step -/

/-- What a step does to the block, by whose step it is. `rest` is the schedule left. -/
inductive StepKind (s t : State) : Prop where
  /-- an idle block with nothing presented waits (R112) -/
  | waits (hidle : s.busy = false) (hsched : s.schedule = []) (ht : t = s)
  /-- a completion: success or failure of the command in `CUR_CMD` (R62, R104, R98) -/
  | completes (hbusy : s.busy = true) (rest : List Event)
      (hsched : (s.schedule = [] ∧ rest = []) ∨ (∃ tl, s.schedule = .wait :: tl ∧ rest = s.schedule) ∨
        s.schedule = .complete :: rest)
      (hcmd : s.curCmd ≠ 0x0F) (ht : t = (s.withSchedule rest).afterCompletion Config.width)
  /-- the state of log entry 9, which no run reaches -/
  | stays (hbusy : s.busy = true) (rest : List Event)
      (hsched : (s.schedule = [] ∧ rest = []) ∨ (∃ tl, s.schedule = .wait :: tl ∧ rest = s.schedule) ∨
        s.schedule = .complete :: rest)
      (hcmd : s.curCmd = 0x0F) (ht : t = s.withSchedule rest)
  /-- the event changes nothing in the block: a read, a refused or erroneous write, no transaction, the end of a
  `WAIT`, a completion mark while idle -/
  | keeps (e : Event) (rest : List Event) (hsched : s.schedule = e :: rest) (ht : t = s.withSchedule rest)
      (hno : ∀ p, e ≠ .reset p)
  /-- reset (R120) -/
  | resets (p : Option Request) (rest : List Event) (hsched : s.schedule = .reset p :: rest)
      (ht : t = resetBlock (s.withSchedule rest))
  /-- an accepted command word (R60) -/
  | accepts (v : Nat) (rest : List Event) (hsched : s.schedule = .transact (.write (regAddr .cmd) v) :: rest)
      (hidle : s.busy = false) (hcmd : commandWordOf v ≠ 0x0F)
      (ht : t = accept (commandWordOf v) (s.withSchedule rest))
  /-- `CLEAR` (R96) -/
  | clears (v : Nat) (rest : List Event) (hsched : s.schedule = .transact (.write (regAddr .cmd) v) :: rest)
      (hidle : s.busy = false) (hcmd : commandWordOf v = 0x0F) (ht : t = clearResults (s.withSchedule rest))
  /-- a `CTRL` write that aborts (R97) -/
  | aborts (v : Nat) (rest : List Event) (hsched : s.schedule = .transact (.write (regAddr .ctrl) v) :: rest)
      (hbusy : s.busy = true) (hv : abortBitOf v = true)
      (ht : t = raise .aborted { s.withSchedule rest with ie := ieBitOf v })
  /-- a `CTRL` write that only sets `IE` (R99) -/
  | setsIe (v : Nat) (rest : List Event) (hsched : s.schedule = .transact (.write (regAddr .ctrl) v) :: rest)
      (hv : abortBitOf v = false ∨ s.busy = false) (ht : t = { s.withSchedule rest with ie := ieBitOf v })
  /-- an operand write (R33) -/
  | stores (r : Reg) (v : Nat) (rest : List Event) (hsched : s.schedule = .transact (.write (regAddr r) v) :: rest)
      (hr : isOperandReg r = true) (hidle : s.busy = false) (ht : t = setOperand r v (s.withSchedule rest))

theorem completion_kind {s u : State} {rest : List Event} (hbusy : s.busy = true)
    (hu : u = s.withSchedule rest) (h : nextAction s = completion u)
    (hsched : (s.schedule = [] ∧ rest = []) ∨ (∃ tl, s.schedule = .wait :: tl ∧ rest = s.schedule) ∨
      s.schedule = .complete :: rest) :
    ∃ t, step s = .next t ∧ StepKind s t := by
  by_cases hc : s.curCmd = 0x0F
  · exact ⟨u, step_of_completion_clear h (by simpa [hu] using hbusy) (by simpa [hu] using hc),
      .stays hbusy rest hsched hc hu⟩
  · exact ⟨_, step_of_completion h (by simpa [hu] using hc), .completes hbusy rest hsched hc (by rw [hu])⟩

theorem operand_write_kind {s : State} {r : Reg} {v : Nat} {rest : List Event}
    (hs : s.schedule = .transact (.write (regAddr r) v) :: rest) (hr : isOperandReg r = true)
    (h : nextAction s = .become (writeOperand r v (s.withSchedule rest))) :
    ∃ t, step s = .next t ∧ StepKind s t := by
  refine ⟨_, step_of_become h, ?_⟩
  cases hb : s.busy with
  | true => exact .keeps _ rest hs (by simp [writeOperand, hb]) (by simp)
  | false => exact .stores r v rest hs hr hb (by simp [writeOperand, hb])

/-- Every step answers a next state, and it is one of the cases. -/
theorem step_total (s : State) : ∃ t, step s = .next t ∧ StepKind s t := by
  cases hs : s.schedule with
  | nil =>
    cases hb : s.busy with
    | false => exact ⟨s, step_of_become (by simp [nextAction_nil hs, hb]), .waits hb hs rfl⟩
    | true =>
      have hself : s = s.withSchedule [] := by rw [← hs]; rfl
      exact completion_kind hb hself (by simp [nextAction_nil hs, hb]) (.inl ⟨hs, rfl⟩)
  | cons e rest =>
    cases e with
    | quiet => exact ⟨_, step_of_become (nextAction_quiet hs), .keeps _ rest hs rfl (by simp)⟩
    | reset p => exact ⟨_, step_of_become (nextAction_reset hs), .resets p rest hs rfl⟩
    | complete =>
      cases hb : s.busy with
      | false => exact ⟨_, step_of_become (by simp [nextAction_complete hs, hb]), .keeps _ rest hs rfl (by simp)⟩
      | true => exact completion_kind hb rfl (by simp [nextAction_complete hs, hb]) (.inr (.inr hs))
    | wait =>
      cases hb : s.busy with
      | false => exact ⟨_, step_of_become (by simp [nextAction_wait hs, hb]), .keeps _ rest hs rfl (by simp)⟩
      | true =>
        have hself : s = s.withSchedule s.schedule := rfl
        exact completion_kind hb hself (by simp [nextAction_wait hs, hb]) (.inr (.inl ⟨rest, hs, rfl⟩))
    | transact req =>
      cases req with
      | read addr =>
        exact ⟨_, step_of_become (by rw [nextAction_transact hs]; rfl), .keeps _ rest hs rfl (by simp)⟩
      | write addr v =>
        have hact : nextAction s = hostWrite (regAt addr) v (s.withSchedule rest) := by
          rw [nextAction_transact hs]; rfl
        have hkeep : nextAction s = .become (s.withSchedule rest) → ∃ t, step s = .next t ∧ StepKind s t :=
          fun h => ⟨_, step_of_become h, .keeps _ rest hs rfl (by simp)⟩
        cases hreg : regAt addr with
        | none => exact hkeep (by rw [hact, hreg]; rfl)
        | some r =>
          have haddr := (regAt_eq_some_iff addr r).mp hreg
          rw [hreg] at hact
          rw [haddr] at hs
          cases r with
          | cmd =>
            replace hact : nextAction s = writeCmd v (s.withSchedule rest) := hact
            by_cases hc : commandWordOf v = 0x0F
            · rw [writeCmd_clear hc] at hact
              cases hb : s.busy with
              | true =>
                exact ⟨_, (step_of_run hact).trans (execClear_busy (by simpa using hb)),
                  .keeps _ rest hs rfl (by simp)⟩
              | false =>
                exact ⟨_, (step_of_run hact).trans (execClear_idle (by simpa using hb)),
                  .clears v rest hs hb hc rfl⟩
            · rw [writeCmd_other hc] at hact
              cases hb : s.busy with
              | true => exact hkeep (by simpa [hb] using hact)
              | false => exact ⟨_, step_of_become (by simpa [hb] using hact), .accepts v rest hs hb hc rfl⟩
          | ctrl =>
            refine ⟨_, step_of_become hact, ?_⟩
            cases hv : abortBitOf v with
            | false => exact .setsIe v rest hs (.inl hv) (by simp [writeCtrl, hv])
            | true =>
              cases hb : s.busy with
              | false => exact .setsIe v rest hs (.inr hb) (by simp [writeCtrl, hb])
              | true => exact .aborts v rest hs hb hv (by simp [writeCtrl, hv, hb])
          | status => exact hkeep hact
          | width => exact hkeep hact
          | res0 => exact hkeep hact
          | res1 => exact hkeep hact
          | res2 => exact hkeep hact
          | res3 => exact hkeep hact
          | opa => exact operand_write_kind hs rfl hact
          | opb => exact operand_write_kind hs rfl hact
          | opm => exact operand_write_kind hs rfl hact
          | opr => exact operand_write_kind hs rfl hact

/-- The inversion lemma: the cases a step's next state can be. -/
theorem step_kind {s t : State} (h : step s = .next t) : StepKind s t := by
  obtain ⟨u, hu, hk⟩ := step_total s
  rw [hu] at h
  exact (Host.Outcome.next.inj h) ▸ hk

/-! ## Runs -/

theorem core_run_succ {s t : State} (k : Nat) (h : step s = .next t) :
    Host.Core.run Sys2Proof.core (k + 1) s = Host.Core.run Sys2Proof.core k t := by
  have : Sys2Proof.core.step s = .next t := h
  simp only [Host.Core.run, this]

end Sys2Proof.Machine
end

