-- ==== Sys2Proof/Tests/Slice0.lean ====
section
/-! SUPPORT. The model's own tests. Expected values come from 95_test_vectors.md (T1 to T20, P1 to P6) or from the rule
named; none is the model's own answer. The second part shows, for each statement with hypotheses, states and operands
that meet them. -/

namespace Sys2Proof.Tests

open Sys2Proof Sys2Proof.Machine

/-! ## Helpers -/

/-- The reset state with operands written. -/
def operands (a b m r : Nat) : State := { State.reset with opa := a, opb := b, opm := m, opr := r }

/-- The state an accepted `CMD` write of `c` leaves: `BUSY = 1` (R60). -/
def running (c : CommandWord) (a b m r : Nat) : State := accept c (operands a b m r)

/-- A schedule on a state. -/
def scheduled (s : State) (es : List Event) : State := { s with schedule := es }

/-- `RES0..RES3` and `STATUS` of a next state. -/
def shows (o : Host.Outcome State Fault Refusal) (r0 r1 r2 r3 status : Nat) : Bool :=
  match o with
  | .next s => s.res0 == r0 && s.res1 == r1 && s.res2 == r2 && s.res3 == r3 && s.statusValue == status
  | _ => false

/-- A test on a next state. -/
def nextMeets (o : Host.Outcome State Fault Refusal) (p : State → Bool) : Bool :=
  match o with
  | .next s => p s
  | _ => false

/-- One step of the command whose word is `c`, from its accepted write on. -/
def run (c a b m r : Nat) : Host.Outcome State Fault Refusal := step ((operands a b m r).withFetchWord 8 c)

/-! ## Decoding: the words of R51, bit by bit -/

theorem test_decode_GCD : decodeTableWord 8 0b00000001 = some .gcd := by decide
theorem test_decode_MODINV : decodeTableWord 8 0b00000010 = some .modinv := by decide
theorem test_decode_MODPOW : decodeTableWord 8 0b00000011 = some .modpow := by decide
theorem test_decode_TOTIENT : decodeTableWord 8 0b00000100 = some .totient := by decide
theorem test_decode_PUBEXP : decodeTableWord 8 0b00000101 = some .pubexp := by decide
theorem test_decode_KEYGEN : decodeTableWord 8 0b00000110 = some .keygen := by decide
theorem test_decode_FACTOR : decodeTableWord 8 0b00000111 = some .factor := by decide
theorem test_decode_CRACK : decodeTableWord 8 0b00001000 = some .crack := by decide
theorem test_decode_CLEAR : decodeTableWord 8 0b00001111 = some .clear := by decide
/-- R53: `0x00`, `0x09`, `0x0E`, `0x11` (bit 4 set: not `GCD`), `0xFF`. -/
theorem test_decode_illegal :
    [0x00, 0x09, 0x0E, 0x11, 0xFF].all (fun w => (decodeTableWord 8 w).isNone) = true := by decide

/-! ## WellFormed refuses what `W` data wires cannot carry -/

theorem test_wf_write_too_wide : (Request.write 0x4 65536).wf (.finite 0) = false := by decide
theorem test_wf_write_widest : (Request.write 0x4 65535).wf (.finite 0) = true := by decide
theorem test_wf_event_too_wide : (Event.transact (.write 0x0 65536)).wf (.finite 0) = false := by decide
theorem test_wf_reset_event_too_wide : (Event.reset (some (.write 0x4 65536))).wf (.finite 0) = false := by decide

/-! ## The commands -/

/-- T10 -/
theorem test_GCD : shows (run 0x01 48 18 0 0) 6 0 0 0 0x02 = true := by decide
theorem test_GCD_zero : shows (run 0x01 0 7 0 0) 7 0 0 0 0x02 = true := by decide
/-- T11 -/
theorem test_MODINV_reduces : shows (run 0x02 1015 0 1012 0) 675 0 0 0 0x02 = true := by decide
theorem test_MODINV_zero_modulus_first : shows (run 0x02 2 0 0 0) 0 0 0 0 0x66 = true := by decide
/-- T1 (the source's own example) and T12 -/
theorem test_MODPOW_source_example : shows (run 0x03 4 13 497 0) 445 0 0 0 0x02 = true := by decide
theorem test_MODPOW_zero_to_zero : shows (run 0x03 0 0 7 0) 1 0 0 0 0x02 = true := by decide
/-- T13: the threshold is strict -/
theorem test_TOTIENT_128 : shows (run 0x04 2 129 0 0) 0 0 0 128 0x02 = true := by decide
theorem test_TOTIENT_127 : shows (run 0x04 2 128 0 0) 0 0 0 0 0x16 = true := by decide
/-- T14: 22, 23, 24 share a factor with 1012 -/
theorem test_PUBEXP_scans : shows (run 0x05 23 47 0 22) 25 1081 0 1012 0x02 = true := by decide
theorem test_PUBEXP_start_too_large : shows (run 0x05 23 47 0 541) 0 0 0 0 0x66 = true := by decide
/-- T15 -/
theorem test_KEYGEN : shows (run 0x06 23 47 0 2) 3 1081 675 1012 0x02 = true := by decide
theorem test_KEYGEN_small_totient : shows (run 0x06 11 13 0 5) 0 0 0 0 0x16 = true := by decide
/-- T16: `n = 4` is the one input for which the inclusive bound matters -/
theorem test_FACTOR_four : shows (run 0x07 0 0 4 0) 2 2 0 0 0x02 = true := by decide
theorem test_FACTOR_prime : shows (run 0x07 0 0 1087 0) 0 0 0 0 0x36 = true := by decide +kernel
/-- T17: factors found, then discarded -/
theorem test_CRACK : shows (run 0x08 3 0 1081 0) 23 47 675 1012 0x02 = true := by decide
theorem test_CRACK_not_invertible : shows (run 0x08 3 0 8 0) 0 0 0 0 0x56 = true := by decide
/-- T18: operands survive, `CMD` reads `0x0F` -/
theorem test_CLEAR : nextMeets (run 0x0F 23 47 0 2) (fun s =>
    s.curCmd == 0x0F && s.statusValue == 0x00 && s.opa == 23 && s.opb == 47 && s.opr == 2) = true := by decide
theorem test_CLEAR_refused_while_busy : nextMeets
    (step (scheduled (running 0x07 0 0 1087 0) [.transact (.write 0x0 0x0F)]))
    (fun s => s.curCmd == 0x07 && s.busy) = true := by decide

/-- T13, T14, T15 at `W = 16`: `Overflow`, also before the range of `r`. -/
theorem test_overflow_W16 :
    totientOutcome (.finite 0) 257 257 = .error .overflow ∧ totientOutcome (.finite 0) 256 258 = .ok ⟨0, 0, 0, 65535⟩ ∧
      pubexpOutcome (.finite 0) 256 256 2 = .error .overflow ∧ keygenOutcome (.finite 0) 300 300 0 = .error .overflow :=
  ⟨rfl, rfl, rfl, rfl⟩
/-- T13 at `W = 32`: `TOTIENT 65536, 65536` succeeds, one more does not. -/
theorem test_overflow_W32 :
    totientOutcome (.finite 16) 65536 65536 = .ok ⟨0, 0, 0, 4294836225⟩ ∧
      totientOutcome (.finite 16) 65537 65537 = .error .overflow := ⟨rfl, rfl⟩
/-- R81: a scan that finds nothing. With `φ = 2` the only candidate of `n = 4`, `r = 2` is 2. -/
theorem test_scan_exhausted : pubexpFn 4 2 2 = .error .searchExhausted := rfl

/-! ## The port, the lifecycle, reset -/

/-- T18: `WR CMD, 0x11`, completion. -/
theorem test_illegal_word : nextMeets
    (core.run 2 (scheduled State.reset [.transact (.write 0x0 0x11), .complete]))
    (fun s => s.statusValue == 0x86 && s.curCmd == 0x11) = true := by decide
/-- T18: `WR CTRL, 3` while busy enables and aborts. -/
theorem test_abort : nextMeets (step (scheduled (running 0x07 0 0 1087 0) [.transact (.write 0x2 3)]))
    (fun s => s.statusValue == 0x96 && s.ie && s.irq) = true := by decide
/-- T19: a write to `OPA` while busy is refused; a read of a reserved address errs. -/
theorem test_refused_write : stepResponse (scheduled (running 0x01 0 0 0 0) [.transact (.write 0x4 9)]) =
    some ⟨0, true⟩ := by decide
theorem test_reserved_read : stepResponse (scheduled State.reset [.transact (.read 0xC)]) = some ⟨0, true⟩ := by decide
/-- T19: `WIDTH` at `W = 32`, and unbounded. -/
theorem test_width : Width.register (.finite 16) = 32 ∧ Width.register .unbounded = 0 := by decide
/-- T20: reset discards a running command. -/
theorem test_reset_discards : nextMeets
    (core.run 2 (scheduled (running 0x06 23 47 0 2) [.reset none])) (fun s => s == State.reset) = true := by decide
/-- P1, lines 1 to 4 and the `WAIT`: the key is there when the wait ends. -/
theorem test_pseudo_KEYGEN : shows
    (core.run 6 (scheduled State.reset (lineEvents (Pseudo.keygen 23 47 2).lines))) 3 1081 675 1012 0x02 = true := by
  decide
/-- R30, R120: `rst_n` low wins over a presented write. -/
theorem test_signals : (PortSignals.event ⟨false, true, true, 0x4, 9⟩ = .reset (some (.write 0x4 9))) ∧
    PortSignals.event ⟨true, true, false, 0x1, 0⟩ = .transact (.read 0x1) := by decide

/-! ## Witnesses: the hypotheses of each statement, met together -/

/-- The states the witnesses are built from meet the invariants. -/
theorem running_inv (c : CommandWord) (hc : c ≠ 0x0F) : (running c 23 47 1081 2).Inv Config.width where
  busy_clear _ := ⟨rfl, rfl, rfl, rfl, rfl, rfl, rfl⟩
  fail_done h := nomatch h
  ok_code _ := rfl
  done_idle h := nomatch h
  code_known := List.mem_cons_self
  busy_not_clear _ := hc
  inRange := ⟨rfl, rfl, rfl, rfl, rfl, rfl, rfl, rfl⟩
  schedule_wf _ he := nomatch he

theorem witness_DecodeInvertsEncode : Instr.keygen.wf = true := rfl

theorem witness_StepRunsTheCommandInCurCmd :
    (running 0x01 48 18 0 0).busy = true ∧ decodeWord (running 0x01 48 18 0 0).curCmd = .ok .gcd ∧
      (running 0x01 48 18 0 0).schedule = [] ∧
      (scheduled (running 0x01 48 18 0 0) [.complete]).schedule = .complete :: [] ∧
      (scheduled (running 0x01 48 18 0 0) [.wait]).schedule = .wait :: [] := ⟨rfl, rfl, rfl, rfl, rfl⟩

/-- T18: bits above 7 are ignored, `0x10F` is `CLEAR`. -/
theorem witness_StepRunsClearWhenItsWordIsWritten :
    decodeWord (BitVec.ofNat 8 0x10F) = .ok .clear ∧
      (scheduled State.reset [.transact (.write 0x0 0x10F)]).schedule = .transact (.write 0x0 0x10F) :: [] := ⟨rfl, rfl⟩

theorem witness_LoadedCommandRunsNext : Instr.keygen ≠ .clear := by decide

/-- One state for each clause of `MODINV` (T11), at `m = 0`, `m = 1` and beyond. -/
theorem witness_ModinvReturnsTheInverse :
    (operands 2 0 0 0).opm = 0 ∧
    ((operands 4 0 1012 0).opm ≠ 0 ∧ Nat.gcd (operands 4 0 1012 0).opa (operands 4 0 1012 0).opm ≠ 1) ∧
    ((operands 0 0 1 0).opm ≠ 0 ∧ Nat.gcd (operands 0 0 1 0).opa (operands 0 0 1 0).opm = 1) := by decide

theorem witness_ModpowReturnsThePower : (operands 5 3 0 0).opm = 0 ∧ (operands 5 0 1 0).opm ≠ 0 := by decide

/-- The branches of `PUBEXP` and `KEYGEN` that a block of every width has (T14): `φ = 127`; `r = 0`; `r = n div 2 + 1`; the
largest legal start with the exponent found. `Overflow` needs a known width and `SearchExhausted` has no known state
(R86): `test_overflow_W16` and `test_scan_exhausted` show them on the functions. -/
theorem witness_PubexpReturnsTheLeastCoprimeExponent :
    ((operands 2 128 0 1).opa - 1) * ((operands 2 128 0 1).opb - 1) ≤ 127 ∧
    (¬ (22 * 46 ≤ 127) ∧ Config.width.fits (23 * 47) = true ∧ (operands 23 47 0 0).opr < 1) ∧
    (23 * 47 / 2 < (operands 23 47 0 541).opr) ∧
    (¬ ((operands 23 47 0 540).opr < 1 ∨ 23 * 47 / 2 < (operands 23 47 0 540).opr) ∧ 540 ≤ 541 ∧ 541 ≤ 23 * 47 - 2 ∧
      Nat.gcd 541 (22 * 46) = 1 ∧ ∀ y, 540 ≤ y → y < 541 → Nat.gcd y (22 * 46) ≠ 1) := by
  refine ⟨by decide, by decide, by decide, by decide, by decide, by decide, by decide, fun y h1 h2 => ?_⟩
  have : y = 540 := by omega
  subst this
  decide

/-- The same for `KEYGEN` at the smallest start that finds `e > 1` (T15). -/
theorem witness_KeygenReturnsTheKeyPair :
    ¬ ((operands 23 47 0 2).opr < 1 ∨ 23 * 47 / 2 < (operands 23 47 0 2).opr) ∧ 2 ≤ 3 ∧ 3 ≤ 23 * 47 - 2 ∧
      Nat.gcd 3 (22 * 46) = 1 ∧ ∀ y, 2 ≤ y → y < 3 → Nat.gcd y (22 * 46) ≠ 1 := by
  refine ⟨by decide, by decide, by decide, by decide, fun y h1 h2 => ?_⟩
  have : y = 2 := by omega
  subst this
  decide

/-- `n = 3`, a prime, and `n = 4` (T16). -/
theorem witness_FactorReturnsTheSmallestDivisor :
    (operands 0 0 3 0).opm < 4 ∧ (operands 0 0 5 0).opm.Prime ∧
      (4 ≤ (operands 0 0 4 0).opm ∧ ¬ (operands 0 0 4 0).opm.Prime) := by
  refine ⟨by decide, ?_, by decide, ?_⟩
  · show Nat.Prime 5
    norm_num
  · show ¬ Nat.Prime 4
    norm_num

/-- `n = 4` has `φ = 1`, so every `e` is coprime; `n = 9`, `e = 2` has `gcd(2, 4) = 2` (R92). -/
theorem witness_CrackRecoversThePrivateExponent :
    (operands 3 0 0 0).opm < 4 ∧
    (4 ≤ (operands 2 0 9 0).opm ∧ ¬ Nat.Prime 9 ∧ Nat.gcd 2 ((Nat.minFac 9 - 1) * (9 / Nat.minFac 9 - 1)) ≠ 1) ∧
    (4 ≤ (operands 7 0 4 0).opm ∧ ¬ Nat.Prime 4 ∧ Nat.gcd 7 ((Nat.minFac 4 - 1) * (4 / Nat.minFac 4 - 1)) = 1) := by
  refine ⟨by decide, ⟨by decide, by norm_num, ?_⟩, by decide, by norm_num, ?_⟩ <;> norm_num

theorem witness_ClearZeroesResultsAtOnce :
    (operands 1 2 3 4).busy = false ∧ (running 0x07 0 0 1087 0).busy = true ∧ 0x10F % 256 = 0x0F ∧
      ∀ s ∈ [operands 1 2 3 4, running 0x07 0 0 1087 0],
        (scheduled s [.transact (.write 0x0 0x10F)]).schedule = .transact (.write 0x0 0x10F) :: [] := by decide

/-- `n = 4` with an out-of-range, a successful and an exhausted start. -/
theorem witness_PubexpScanFindsTheLeastCandidate :
    4 ≤ 4 ∧ (0 < 1 ∨ 4 / 2 < 0) ∧ (1 ≤ 2 ∧ 2 ≤ 4 / 2) ∧ pubexpFn 4 3 2 = .ok 2 ∧
      pubexpFn 4 2 2 = .error .searchExhausted := ⟨by decide, by decide, by decide, rfl, rfl⟩

/-- T14 at `W = 16`. -/
theorem witness_OverflowExcludesInvalidKeyMaterial :
    (Width.finite 0).fits 256 = true ∧ (Width.finite 0).fits (256 * 256) = false := by decide

theorem witness_OperandsMayBeReducedFirst : (operands 1015 0 1012 0).opm ≠ 0 := by decide

theorem witness_RunCommandsFrame : ∃ t,
    Instr.gcd ∈ [Instr.gcd, .modinv, .modpow, .totient, .pubexp, .keygen, .factor, .crack] ∧
      exec .gcd (running 0x01 48 18 0 0) = .next t := ⟨_, by decide, rfl⟩

/-- A failing command on cleared results: `MODINV 2, 0`. -/
theorem witness_CommandsReportOnlyTheirCodes : ∃ t, (running 0x02 2 0 0 0).fail = false ∧
    exec .modinv (running 0x02 2 0 0 0) = .next t ∧ t.fail = true := ⟨_, rfl, rfl, rfl⟩

theorem witness_FailureShowsNoPartialResult : ∃ t, (running 0x02 2 0 0 0).resultsZero ∧
    (running 0x02 2 0 0 0).fail = false ∧ exec .modinv (running 0x02 2 0 0 0) = .next t ∧ t.fail = true :=
  ⟨_, ⟨rfl, rfl, rfl, rfl⟩, rfl, rfl, rfl⟩

/-- Two runs of `GCD` with different `IE`. -/
theorem witness_OutcomeDependsOnOperandsReadOnly : ∃ t t' s' : State,
    sameOperandsRead .gcd (running 0x01 23 47 1081 2) t ∧ (running 0x01 23 47 1081 2).busy = true ∧ t.busy = true ∧
      (running 0x01 23 47 1081 2).Inv Config.width ∧ t.Inv Config.width ∧ Instr.gcd ≠ .clear ∧
      exec .gcd (running 0x01 23 47 1081 2) = .next s' ∧ exec .gcd t = .next t' := by
  have h := running_inv 0x01 (by decide)
  exact ⟨{ running 0x01 23 47 1081 2 with ie := true }, _, _, ⟨rfl, rfl⟩, rfl, rfl, h,
    ⟨h.busy_clear, h.fail_done, h.ok_code, h.done_idle, h.code_known, h.busy_not_clear,
      ⟨rfl, rfl, rfl, rfl, rfl, rfl, rfl, rfl⟩, fun e he => nomatch he⟩, by decide, rfl, rfl⟩

/-- `KEYGEN 23, 47, 2` succeeds (T15); the next two statements' states are its results' users. -/
theorem witness_KeygenIsTheSequenceOfItsSteps : ∃ t : State, exec .keygen (running 0x06 23 47 1081 2) = .next t ∧
    t.fail = false ∧ (operands t.res0 0 t.res3 0).opa = t.res0 ∧ (operands t.res0 0 t.res3 0).opm = t.res3 :=
  ⟨_, rfl, rfl, rfl, rfl⟩

/-- The failure half: `KEYGEN 2, 128, 1` and `PUBEXP 2, 128, 1` fail with `InvalidKeyMaterial` as `TOTIENT 2, 128` does
(R82's corner case). -/
theorem witness_KeygenIsTheSequenceOfItsSteps_failure : (running 0x06 2 128 0 1).fail = false ∧
    exec .totient (running 0x06 2 128 0 1) = .next ((running 0x06 2 128 0 1).completedErr 1) ∧
    exec .pubexp (running 0x06 2 128 0 1) = .next ((running 0x06 2 128 0 1).completedErr 1) := ⟨rfl, rfl, rfl⟩

theorem witness_AcceptStartsTheCommand :
    (scheduled State.reset [.transact (.write 0x0 0x101)]).busy = false ∧ BitVec.ofNat 8 0x101 ≠ (0x0F : CommandWord) ∧
      (scheduled State.reset [.transact (.write 0x0 0x101)]).schedule = .transact (.write 0x0 0x101) :: [] := by decide

/-- One busy state that succeeds, one that fails, one with an illegal word. -/
theorem witness_CompletionCommitsTheOutcome :
    (∀ c ∈ [(0x01 : CommandWord), 0x02, 0x09], (running c 0 7 0 0).busy = true ∧ (running c 0 7 0 0).curCmd ≠ 0x0F ∧
      (running c 0 7 0 0).schedule = []) ∧
    execOutcome Config.width 0x01 0 7 0 0 = .ok ⟨7, 0, 0, 0⟩ ∧
    execOutcome Config.width 0x02 0 7 0 0 = .error .invalidOperand ∧
    execOutcome Config.width 0x09 0 7 0 0 = .error .illegalCommand := ⟨by decide, rfl, rfl, rfl⟩

theorem witness_AcceptedCommandCompletesOnItsOperands :
    (operands 48 18 0 0).busy = false ∧ BitVec.ofNat 8 0x01 ≠ (0x0F : CommandWord) ∧
      (scheduled (operands 48 18 0 0) [.transact (.write 0x0 0x01), .complete]).schedule =
        .transact (.write 0x0 0x01) :: .complete :: [] := by decide

/-- The ends of the three ranges of illegal words (R53). -/
theorem witness_IllegalWordFailsWithIllegalCommand :
    State.reset.busy = false ∧ ∀ v ∈ [0x00, 0x09, 0x0E, 0x10, 0xFF],
      (v % 256 = 0x00 ∨ (0x09 ≤ v % 256 ∧ v % 256 ≤ 0x0E) ∨ 0x10 ≤ v % 256) ∧
        (scheduled State.reset [.transact (.write 0x0 v), .complete]).schedule =
          .transact (.write 0x0 v) :: .complete :: [] := by decide

/-- A running and an idle block under `WR CTRL, 2`, and both orders of the race. -/
theorem witness_AbortEndsTheRunningCommand :
    Nat.testBit 2 1 = true ∧ (running 0x07 0 0 1087 0).busy = true ∧ (running 0x07 0 0 1087 0).curCmd ≠ 0x0F ∧
      State.reset.busy = false ∧
      (scheduled (running 0x07 0 0 1087 0) [.transact (.write 0x2 2), .complete]).schedule =
        .transact (.write 0x2 2) :: .complete :: [] ∧
      (scheduled (running 0x07 0 0 1087 0) [.complete, .transact (.write 0x2 2)]).schedule =
        .complete :: .transact (.write 0x2 2) :: [] := by decide

theorem witness_CtrlWriteSetsTheInterruptEnable : Nat.testBit 1 1 = false ∧
    (scheduled State.reset [.transact (.write 0x2 1)]).schedule = .transact (.write 0x2 1) :: [] := by decide

theorem witness_WaitLastsUntilTheCompletion : (scheduled (running 0x07 0 0 15 0) [.wait]).busy = true ∧
    (scheduled (running 0x07 0 0 15 0) [.wait]).curCmd ≠ 0x0F ∧
    (scheduled (running 0x07 0 0 15 0) [.wait]).schedule = .wait :: [] := by decide

theorem witness_OperandWriteStoresItsValue : State.reset.busy = false ∧
    ∀ a ∈ [(0x4 : RegAddr), 0x5, 0x6, 0x7], (scheduled State.reset [.transact (.write a 9)]).schedule =
      .transact (.write a 9) :: [] := by decide

theorem witness_WritesWhileBusyAreRefused : (running 0x07 0 0 1087 0).busy = true ∧
    ∀ a ∈ [(0x0 : RegAddr), 0x4, 0x5, 0x6, 0x7],
      (scheduled (running 0x07 0 0 1087 0) [.transact (.write a 0x0F)]).schedule =
        .transact (.write a 0x0F) :: [] := by decide

theorem witness_ReadOnlyRegistersRefuseWrites : ∀ a ∈ [(0x1 : RegAddr), 0x3, 0x8, 0x9, 0xA, 0xB],
    (scheduled State.reset [.transact (.write a 5)]).schedule = .transact (.write a 5) :: [] := by decide

theorem witness_ReservedAddressesAnswerWithAnError : 0xC ≤ (0xC : RegAddr).toNat ∧ 0xC ≤ (0xF : RegAddr).toNat ∧
    (scheduled State.reset [.transact (.write 0xF 5)]).schedule = .transact (.write 0xF 5) :: [] := by decide

theorem witness_ReadsReturnTheRegisters :
    (scheduled State.reset [.transact (.read 0x1)]).schedule = .transact (.read 0x1) :: [] := by decide

/-- The clause on result registers while `BUSY = 1`, at both ends of its range. -/
theorem witness_ReadsReturnTheRegisters_busy : ∀ a ∈ [(0x8 : RegAddr), 0xF], 0x8 ≤ a.toNat ∧
    ∃ s : State, s.Inv Config.width ∧ s.busy = true ∧ s.schedule = .transact (.read a) :: [] := by
  intro a ha
  have h := running_inv 0x01 (by decide)
  refine ⟨by revert a; decide, scheduled (running 0x01 23 47 1081 2) [.transact (.read a)], ?_, rfl, rfl⟩
  exact ⟨h.busy_clear, h.fail_done, h.ok_code, h.done_idle, h.code_known, h.busy_not_clear,
    ⟨rfl, rfl, rfl, rfl, rfl, rfl, rfl, rfl⟩, fun e he => by simp [scheduled] at he; subst he; rfl⟩

/-- A read that errs, a write that errs at any time, and one that errs while busy. -/
theorem witness_AccessErrorsAreExactlyTheseAndChangeNothing :
    stepResponse (scheduled State.reset [.transact (.read 0xF)]) = some ⟨0, true⟩ ∧
    stepResponse (scheduled State.reset [.transact (.write 0x8 5)]) = some ⟨0, true⟩ ∧
    stepResponse (scheduled (running 0x01 0 0 0 0) [.transact (.write 0x0 1)]) = some ⟨0, true⟩ ∧
    stepResponse (scheduled State.reset [.transact (.write 0x0 1)]) = some ⟨0, false⟩ := by decide

/-- `W = 65535` and `W = 65536`, the ends of R16's range. -/
theorem witness_WidthReadsTheParameter : 16 + 65519 ≤ 65535 ∧ 65535 < 16 + 65520 ∧
    (scheduled State.reset [.transact (.write 0x3 64)]).schedule = .transact (.write 0x3 64) :: [] := by decide

theorem witness_ResetZeroesTheBlock :
    (scheduled (running 0x06 23 47 0 2) [.reset (some (.write 0x4 9))]).schedule =
      .reset (some (.write 0x4 9)) :: [] := by decide

/-- `irq` rises at a completion and at `WR CTRL, 1` after one; it falls at `WR CMD`, at reset and at `WR CTRL, 0`. -/
theorem witness_IrqRisesAndFallsOnlyAt :
    nextMeets (step { running 0x01 48 18 0 0 with ie := true }) State.irq = true ∧
    nextMeets (step (scheduled { State.reset with done := true } [.transact (.write 0x2 1)])) State.irq = true ∧
    (∀ e ∈ [Event.transact (.write 0x0 0x0F), .reset none, .transact (.write 0x2 0)],
      nextMeets (step (scheduled { State.reset with done := true, ie := true } [e])) (fun t => !t.irq) = true) := by
  decide

theorem witness_EveryStepKeepsTheInvariant : ∃ t, (running 0x06 23 47 1081 2).Inv Config.width ∧
    step (running 0x06 23 47 1081 2) = .next t := ⟨_, running_inv _ (by decide), rfl⟩

/-- A completed `GCD` with its result, read once. -/
theorem witness_ResultsStayCurrentUntilAnOperandChanges : ∃ s t : State,
    s.done = true ∧ s.fail = false ∧ s.resultsCurrent Config.width ∧ step s = .next t ∧ s.sameOperands t :=
  ⟨scheduled ((running 0x01 48 18 0 0).completedOk 6 0 0 0) [.transact (.read 0x8)], _, rfl, rfl,
    fun _ _ => rfl, rfl, rfl, rfl, rfl, rfl⟩

/-- `BUSY` rises at an accept; it falls at a completion, an abort and a reset. -/
theorem witness_PhaseChangesOnlyAt :
    nextMeets (step (scheduled State.reset [.transact (.write 0x0 0x01)])) State.busy = true ∧
    (∀ es ∈ [[], [Event.complete], [.wait], [.transact (.write 0x2 2)], [.reset none]],
      nextMeets (step (scheduled (running 0x01 48 18 0 0) es)) (fun t => !t.busy) = true) := by decide

theorem witness_OperandsChangeOnlyByHostOrReset : ∃ t,
    step (scheduled State.reset [.transact (.write 0x7 2)]) = .next t ∧ t.opr ≠ State.reset.opr :=
  ⟨_, rfl, by decide⟩

theorem witness_ResultsChangeOnlyAtThreeMoments : ∃ t,
    step (running 0x01 48 18 0 0) = .next t ∧ t.res0 ≠ (running 0x01 48 18 0 0).res0 := ⟨_, rfl, by decide⟩

theorem witness_CommandAndEnableChangeOnlyByTheirWrites : ∃ t u,
    step (scheduled State.reset [.transact (.write 0x0 0x07)]) = .next t ∧ t.curCmd ≠ State.reset.curCmd ∧
      step (scheduled State.reset [.transact (.write 0x2 1)]) = .next u ∧ u.ie ≠ State.reset.ie :=
  ⟨_, _, rfl, by decide, rfl, by decide⟩

theorem witness_EveryScheduleEndsIdle : (running 0x06 23 47 1081 2).Inv Config.width := running_inv _ (by decide)

/-- `KEYGEN 23, 47, 2` and `PUBEXP 23, 47, 2`; the symbol 72 under the key found (P1). -/
theorem witness_KeygenGuarantees : ∃ t u mid : State,
    exec .keygen (running 0x06 23 47 1081 2) = .next t ∧ t.fail = false ∧
      exec .pubexp (running 0x05 23 47 1081 2) = .next u ∧ u.fail = false ∧
      Nat.Prime 23 ∧ Nat.Prime 47 ∧ 23 ≠ 47 ∧ 72 < t.res1 ∧ exec .modpow (operands 72 3 1081 0) = .next mid ∧
      t.res0 = 3 ∧ t.res1 = 1081 ∧ (operands mid.res0 675 1081 0).opb = t.res2 :=
  ⟨_, _, _, rfl, rfl, rfl, rfl, by norm_num, by norm_num, by decide, by decide, rfl, rfl, rfl, rfl⟩

/-- `p = 23`, `q = 47`, `e = 3`, and a symbol `≥ n`: 1200 comes back as `1200 mod 1081 = 119` (T12). -/
theorem witness_RoundTripLaw : ∃ key mid : State,
    Nat.Prime 23 ∧ Nat.Prime 47 ∧ 23 ≠ 47 ∧ Nat.gcd 3 ((23 - 1) * (47 - 1)) = 1 ∧
      (operands 3 0 1012 0).opm = (23 - 1) * (47 - 1) ∧ exec .modinv (operands 3 0 1012 0) = .next key ∧
      key.res0 = 675 ∧ exec .modpow (operands 1200 3 (23 * 47) 0) = .next mid ∧ mid.res0 = 961 ∧ 1200 % 1081 = 119 :=
  ⟨_, _, by norm_num, by norm_num, by decide, by decide, rfl, rfl, rfl, rfl, rfl, rfl⟩

/-- T2: the key of `KEYGEN 47, 23, 2` (primes swapped) and the crack of its public key. -/
theorem witness_CrackGuaranteesAndRecoversTheKey : ∃ t u : State,
    exec .crack (running 0x08 3 0 1081 0) = .next u ∧ u.fail = false ∧
      Nat.Prime 23 ∧ Nat.Prime 47 ∧ 23 < 47 ∧ exec .keygen (running 0x06 47 23 0 2) = .next t ∧ t.fail = false ∧
      t.res0 = 3 ∧ t.res1 = 1081 :=
  ⟨_, _, rfl, rfl, by norm_num, by norm_num, by decide, rfl, rfl, rfl, rfl⟩

/-- Each kind of step that writes the status: accept, `CLEAR`, reset, a successful and a failed completion, abort; and
one that does not, a completion mark on a failed idle block. -/
theorem witness_StatusFlagsChangeOnlyAt :
    nextMeets (step (scheduled ((operands 0 0 0 0).completedErr 6) [.transact (.write 0x0 0x01)]))
      (fun t => t.statusValue == 0x01) = true ∧
    (∀ e ∈ [Event.transact (.write 0x0 0x0F), .reset none],
      nextMeets (step (scheduled ((operands 0 0 0 0).completedErr 6) [e])) (fun t => t.statusValue == 0x00) = true) ∧
    nextMeets (step (running 0x01 48 18 0 0)) (fun t => t.statusValue == 0x02) = true ∧
    nextMeets (step (running 0x02 2 0 0 0)) (fun t => t.statusValue == 0x66) = true ∧
    nextMeets (step (scheduled (running 0x07 0 0 1087 0) [.transact (.write 0x2 2)]))
      (fun t => t.statusValue == 0x96) = true ∧
    nextMeets (step (scheduled ((operands 0 0 0 0).completedErr 6) [.complete]))
      (fun t => t.statusValue == 0x66) = true := by decide

end Sys2Proof.Tests
end

section
/-! PROOFS. The scope of the model (00_scope.md): what the width parameter decides. -/

namespace Sys2Proof

/-- Settles O18: at a finite width the model's extra test `v < 2^16` is implied by `v < 2^W`, because `W` is at least
16 (R6, R7); at an unbounded width nothing is refused. -/
theorem fitsMeansBelowTwoToTheW : Obligations.FitsMeansBelowTwoToTheW :=
  ⟨Width.fits_finite_iff, Width.fits_unbounded⟩

end Sys2Proof
end

section
/-! PROOFS. What a completion leaves, said once: the outcome of `Exec` for any command word (R61, R98), the two states
a completion can give (R62, R104), and where in a schedule it stands. -/

namespace Sys2Proof.Machine

theorem execOutcome_illegal {w : Width} {c : CommandWord} {e : DecodeError} {a b m r : Nat}
    (h : decodeWord c = .error e) : execOutcome w c a b m r = .error .illegalCommand := by
  simp [execOutcome, h]

/-- A successful outcome fits the width its operands fit, whatever the command word (R7, R25). -/
theorem execOutcome_word_fits {w : Width} {c : CommandWord} {a b m r : Nat} {res : Results}
    (ha : w.fits a = true) (hb : w.fits b = true) (hm : w.fits m = true) (h : execOutcome w c a b m r = .ok res) :
    w.fits res.r0 = true ∧ w.fits res.r1 = true ∧ w.fits res.r2 = true ∧ w.fits res.r3 = true := by
  obtain ⟨i, -, rfl⟩ | ⟨hdec, -⟩ := decodeWord_cases c
  · exact execOutcome_fits ha hb hm h
  · rw [execOutcome_illegal hdec] at h
    cases h

/-- No command word ends with the reserved code 4 (R114). -/
theorem execOutcome_ne_invalidInputType {w : Width} {c : CommandWord} {a b m r : Nat} {f : Failure}
    (h : execOutcome w c a b m r = .error f) : f ≠ .invalidInputType := by
  rintro rfl
  obtain ⟨i, -, rfl⟩ | ⟨hdec, -⟩ := decodeWord_cases c
  · have hnone : Failure.invalidInputType.code ∉ reportableCodes i := by cases i <;> decide
    exact hnone (execOutcome_error_mem h)
  · rw [execOutcome_illegal hdec] at h
    cases h

theorem Failure.code_ne_zero (f : Failure) : f.code ≠ 0 := by cases f <;> decide

/-- Every failure but the reserved one has a code of R26 item 6. -/
theorem Failure.code_known {f : Failure} (h : f ≠ .invalidInputType) :
    f.code ∈ [0, 1, 2, 3, 5, 6, 7, 8, (9 : ErrCode)] := by
  cases f with
  | invalidInputType => exact absurd rfl h
  | _ => decide

/-- A completion commits the outcome of `CUR_CMD` on the operands: its results (R62), or its code (R104). -/
theorem afterCompletion_cases (w : Width) (s : State) :
    (∃ r, execOutcome w s.curCmd s.opa s.opb s.opm s.opr = .ok r ∧
        s.afterCompletion w = s.completedOk r.r0 r.r1 r.r2 r.r3) ∨
      ∃ f, execOutcome w s.curCmd s.opa s.opb s.opm s.opr = .error f ∧
        s.afterCompletion w = s.completedErr f.code := by
  unfold State.afterCompletion
  cases execOutcome w s.curCmd s.opa s.opb s.opm s.opr with
  | ok r => exact .inl ⟨r, rfl, rfl⟩
  | error f => exact .inr ⟨f, rfl, rfl⟩

section completionPlace
variable {s : State} {rest : List Event}

/-- The places of a completion (log entries 2, 3, 5), without what they leave of the schedule. -/
theorem completion_place
    (h : (s.schedule = [] ∧ rest = []) ∨ (∃ tl, s.schedule = .wait :: tl ∧ rest = s.schedule) ∨
      s.schedule = .complete :: rest) :
    s.schedule = [] ∨ ∃ rest, s.schedule = .complete :: rest ∨ s.schedule = .wait :: rest := by
  obtain ⟨hnil, -⟩ | ⟨tl, hwait, -⟩ | hmark := h
  · exact .inl hnil
  · exact .inr ⟨tl, .inr hwait⟩
  · exact .inr ⟨rest, .inl hmark⟩

/-- A completion leaves events that were there before it. -/
theorem completion_rest_subset
    (h : (s.schedule = [] ∧ rest = []) ∨ (∃ tl, s.schedule = .wait :: tl ∧ rest = s.schedule) ∨
      s.schedule = .complete :: rest) :
    rest ⊆ s.schedule := by
  obtain ⟨-, rfl⟩ | ⟨-, -, rfl⟩ | hmark := h
  · exact List.nil_subset _
  · exact List.Subset.refl _
  · exact hmark ▸ List.subset_cons_self _ _

end completionPlace

end Sys2Proof.Machine
end

section
/-! PROOFS. The invariants of R26, the ranges of R25 and the `CUR_CMD` clause of R61, kept by each thing a step can do
to the block; then by the step itself. -/

namespace Sys2Proof.Machine

theorem fits_zero (w : Width) : w.fits 0 = true := w.fits_of_lt (by decide)

section
variable {w : Width} {s : State}

theorem State.InRange.setOperand {v : Nat} (h : s.InRange w) (hv : w.fits v = true) (r : Reg) :
    (setOperand r v s).InRange w := by
  cases r with
  | opa => exact { h with opa := hv }
  | opb => exact { h with opb := hv }
  | opm => exact { h with opm := hv }
  | opr => exact { h with opr := hv }
  | _ => exact h

theorem State.Inv.withSchedule {rest : List Event} (h : s.Inv w) (hrest : rest ⊆ s.schedule) :
    (s.withSchedule rest).Inv w :=
  { h with inRange := { h.inRange with }, schedule_wf := fun e he => h.schedule_wf e (hrest he) }

theorem State.Inv.setIe (h : s.Inv w) (b : Bool) : State.Inv w { s with ie := b } :=
  { h with inRange := { h.inRange with } }

theorem State.Inv.setOperand {v : Nat} (h : s.Inv w) (hv : w.fits v = true) (r : Reg) :
    (setOperand r v s).Inv w where
  busy_clear := by simpa [State.resultsZero] using h.busy_clear
  fail_done := by simpa [State.resultsZero] using h.fail_done
  ok_code := by simpa using h.ok_code
  done_idle := by simpa using h.done_idle
  code_known := by simpa using h.code_known
  busy_not_clear := by simpa using h.busy_not_clear
  inRange := h.inRange.setOperand hv r
  schedule_wf := by simpa using h.schedule_wf

theorem State.Inv.accept {c : CommandWord} (h : s.Inv w) (hc : c ≠ 0x0F) : (accept c s).Inv w where
  busy_clear _ := ⟨rfl, rfl, rfl, rfl, rfl, rfl, rfl⟩
  fail_done := nofun
  ok_code _ := rfl
  done_idle := nofun
  code_known := List.mem_cons_self
  busy_not_clear _ := hc
  inRange := { h.inRange with res0 := fits_zero w, res1 := fits_zero w, res2 := fits_zero w, res3 := fits_zero w }
  schedule_wf := h.schedule_wf

theorem State.Inv.clearResults (h : s.Inv w) (hidle : s.busy = false) : (clearResults s).Inv w where
  busy_clear _ := ⟨rfl, rfl, rfl, rfl, rfl, rfl, rfl⟩
  fail_done := nofun
  ok_code _ := rfl
  done_idle := nofun
  code_known := List.mem_cons_self
  busy_not_clear hbusy := absurd (hidle.symm.trans hbusy) (by decide)
  inRange := { h.inRange with res0 := fits_zero w, res1 := fits_zero w, res2 := fits_zero w, res3 := fits_zero w }
  schedule_wf := h.schedule_wf

/-- Reset meets the invariants whatever the block was (R120, R121): only the host's events must be well formed. -/
theorem resetBlock_inv (h : ∀ e ∈ s.schedule, e.wf w = true) : (resetBlock s).Inv w where
  busy_clear := nofun
  fail_done := nofun
  ok_code _ := rfl
  done_idle := nofun
  code_known := List.mem_cons_self
  busy_not_clear := nofun
  inRange := by constructor <;> exact fits_zero w
  schedule_wf := h

/-- A failure of a running command (R104): the results are still the zeros of the accept step, which is what R26 item 2
asks for. -/
theorem State.Inv.raise {f : Failure} (h : s.Inv w) (hbusy : s.busy = true) (hf : f ≠ .invalidInputType) :
    (raise f s).Inv w := by
  obtain ⟨-, -, -, hzero⟩ := h.busy_clear hbusy
  exact {
    busy_clear := nofun
    fail_done := fun _ => ⟨rfl, f.code_ne_zero, hzero⟩
    ok_code := nofun
    done_idle := fun _ => rfl
    code_known := Failure.code_known hf
    busy_not_clear := nofun
    inRange := { h.inRange with }
    schedule_wf := h.schedule_wf }

/-- A success of a running command (R62): `FAIL` is still the 0 of the accept step. -/
theorem State.Inv.completedOk {r0 r1 r2 r3 : Nat} (h : s.Inv w) (hbusy : s.busy = true)
    (h0 : w.fits r0 = true) (h1 : w.fits r1 = true) (h2 : w.fits r2 = true) (h3 : w.fits r3 = true) :
    (s.completedOk r0 r1 r2 r3).Inv w := by
  obtain ⟨-, hfail, -, -⟩ := h.busy_clear hbusy
  exact {
    busy_clear := nofun
    fail_done := fun hf => absurd (hfail.symm.trans hf) (by decide)
    ok_code := h.ok_code
    done_idle := fun _ => rfl
    code_known := h.code_known
    busy_not_clear := nofun
    inRange := { h.inRange with res0 := h0, res1 := h1, res2 := h2, res3 := h3 }
    schedule_wf := h.schedule_wf }

theorem State.Inv.afterCompletion (h : s.Inv w) (hbusy : s.busy = true) : (s.afterCompletion w).Inv w := by
  obtain ⟨r, hok, hend⟩ | ⟨f, herr, hend⟩ := afterCompletion_cases w s
  · obtain ⟨h0, h1, h2, h3⟩ := execOutcome_word_fits h.inRange.opa h.inRange.opb h.inRange.opm hok
    exact hend ▸ h.completedOk hbusy h0 h1 h2 h3
  · exact hend ▸ h.raise hbusy (execOutcome_ne_invalidInputType herr)

/-- Taking the head event off the schedule keeps the invariants. -/
theorem State.Inv.tail {e : Event} {rest : List Event} (h : s.Inv w) (hs : s.schedule = e :: rest) :
    (s.withSchedule rest).Inv w :=
  h.withSchedule (hs ▸ List.subset_cons_self e rest)

/-- The data of the write presented next fits the width (R30). -/
theorem State.Inv.fits_write {addr : RegAddr} {v : Nat} {rest : List Event} (h : s.Inv w)
    (hs : s.schedule = .transact (.write addr v) :: rest) : w.fits v = true :=
  h.schedule_wf (.transact (.write addr v)) (hs ▸ List.mem_cons_self)

end

/-- Settles O44, by the cases of a step: each of the block's operations keeps the invariants (R26). -/
theorem everyStepKeepsTheInvariant : Obligations.EveryStepKeepsTheInvariant := by
  intro s t hinv hstep
  cases step_kind hstep with
  | waits _ _ ht => exact ht ▸ hinv
  | completes hbusy rest hsched _ ht =>
    exact ht ▸ (hinv.withSchedule (completion_rest_subset hsched)).afterCompletion hbusy
  | stays _ rest hsched _ ht => exact ht ▸ hinv.withSchedule (completion_rest_subset hsched)
  | keeps e rest hsched ht _ => exact ht ▸ hinv.tail hsched
  | resets p rest hsched ht => exact ht ▸ resetBlock_inv (hinv.tail hsched).schedule_wf
  | accepts v rest hsched _ hcmd ht => exact ht ▸ (hinv.tail hsched).accept hcmd
  | clears v rest hsched hidle _ ht => exact ht ▸ (hinv.tail hsched).clearResults hidle
  | aborts v rest hsched hbusy _ ht => exact ht ▸ ((hinv.tail hsched).setIe _).raise hbusy (by decide)
  | setsIe v rest hsched _ ht => exact ht ▸ (hinv.tail hsched).setIe _
  | stores r v rest hsched _ _ ht => exact ht ▸ (hinv.tail hsched).setOperand (hinv.fits_write hsched) r

/-- Settles O43: the reset state is what a reset of itself leaves, and nothing is presented. -/
theorem resetMeetsTheInvariant : Obligations.ResetMeetsTheInvariant :=
  resetBlock_inv (s := State.reset) nofun

end Sys2Proof.Machine
end

section
/-! PROOFS. What each component of the state can change by (R11 to R15, R18, R19), and the commands' frame: each is
read off the cases of a step. -/

namespace Sys2Proof.Machine

/-- Settles O20: a run command commits its outcome, and neither way of committing it writes outside the results and the
status. -/
theorem runCommandsFrame : Obligations.RunCommandsFrame := by
  intro i s t hi hexec
  have hrun : i ≠ .clear := by
    rintro rfl
    exact absurd hi (by decide)
  rw [exec_eq_finish hrun] at hexec
  cases hout : execOutcome Config.width (encodeWord i) s.opa s.opb s.opm s.opr with
  | ok r =>
    rw [hout, finish_ok] at hexec
    cases hexec
    exact ⟨rfl, rfl, rfl, rfl, rfl, rfl, rfl, rfl, rfl, .inl ⟨rfl, rfl⟩⟩
  | error f =>
    rw [hout, finish_error] at hexec
    cases hexec
    exact ⟨rfl, rfl, rfl, rfl, rfl, rfl, rfl, rfl, rfl, .inr ⟨rfl, rfl, rfl, rfl, rfl⟩⟩

/-- Settles O45: a success writes the outcome itself; whatever else changes a component of it leaves `DONE` at 0 or
`FAIL` at 1, but for an operand write, and that one the statement shuts out. -/
theorem resultsStayCurrentUntilAnOperandChanges : Obligations.ResultsStayCurrentUntilAnOperandChanges := by
  refine ⟨nofun, fun s t hcur hstep hsame => ?_⟩
  cases step_kind hstep with
  | waits _ _ ht => exact ht ▸ hcur
  | completes _ rest _ _ ht =>
    obtain ⟨r, hok, hend⟩ | ⟨f, -, hend⟩ := afterCompletion_cases Config.width (s.withSchedule rest)
    · rw [ht, hend]
      exact fun _ _ => hok
    · rw [ht, hend]
      exact nofun
  | stays _ _ _ _ ht | keeps _ _ _ ht _ | setsIe _ _ _ _ ht => subst ht; exact hcur
  | resets _ _ _ ht | accepts _ _ _ _ _ ht | clears _ _ _ _ _ ht | aborts _ _ _ _ _ ht => subst ht; exact nofun
  | stores r v rest _ _ _ ht =>
    obtain ⟨ha, hb, hm, hr⟩ := hsame
    intro hdone hfail
    rw [ha, hb, hm, hr]
    subst ht
    simpa using hcur (by simpa using hdone) (by simpa using hfail)

/-- `BUSY` rises only at an accept (R18, R60). -/
theorem busy_rises_at_accept {s t : State} (hstep : step s = .next t) (hs : s.busy = false) (ht : t.busy = true) :
    ∃ v rest, s.schedule = .transact (.write (regAddr .cmd) v) :: rest ∧ commandWordOf v ≠ 0x0F ∧
      t.curCmd = commandWordOf v := by
  cases step_kind hstep with
  | accepts v rest hsched _ hcmd hnext => exact ⟨v, rest, hsched, hcmd, by rw [hnext, accept_curCmd]⟩
  | _ => simp_all -- `BUSY` keeps its value or becomes 0, against `hs` and `ht`

/-- `BUSY` falls only at a completion, an abort or reset (R18, R67). -/
theorem busy_falls_at {s t : State} (hstep : step s = .next t) (hs : s.busy = true) (ht : t.busy = false) :
    (t.done = true ∧ (s.schedule = [] ∨ ∃ rest, s.schedule = .complete :: rest ∨ s.schedule = .wait :: rest)) ∨
      (∃ v rest, s.schedule = .transact (.write (regAddr .ctrl) v) :: rest ∧ abortBitOf v = true) ∨
      ∃ p rest, s.schedule = .reset p :: rest := by
  cases step_kind hstep with
  | completes _ rest hsched _ hnext => exact .inl ⟨by rw [hnext, afterCompletion_done], completion_place hsched⟩
  | aborts v rest hsched _ hv _ => exact .inr (.inl ⟨v, rest, hsched, hv⟩)
  | resets p rest hsched _ => exact .inr (.inr ⟨p, rest, hsched⟩)
  | _ => simp_all -- `BUSY` keeps its value or was 0, against `hs` and `ht`

/-- Settles O47: the two directions are `busy_rises_at_accept` and `busy_falls_at`. -/
theorem phaseChangesOnlyAt : Obligations.PhaseChangesOnlyAt :=
  fun _ _ hstep => ⟨busy_rises_at_accept hstep, busy_falls_at hstep⟩

/-- Settles O48: of the cases of a step only an operand write and reset write an operand register. -/
theorem operandsChangeOnlyByHostOrReset : Obligations.OperandsChangeOnlyByHostOrReset := by
  intro s t hstep
  cases step_kind hstep with
  | resets p rest hsched _ => exact .inl ⟨p, rest, hsched⟩
  | stores r v rest hsched hr hidle ht =>
    subst ht
    cases r with
    | opa => exact .inr ⟨.inr ⟨v, rest, hsched, hidle, rfl⟩, .inl rfl, .inl rfl, .inl rfl⟩
    | opb => exact .inr ⟨.inl rfl, .inr ⟨v, rest, hsched, hidle, rfl⟩, .inl rfl, .inl rfl⟩
    | opm => exact .inr ⟨.inl rfl, .inl rfl, .inr ⟨v, rest, hsched, hidle, rfl⟩, .inl rfl⟩
    | opr => exact .inr ⟨.inl rfl, .inl rfl, .inl rfl, .inr ⟨v, rest, hsched, hidle, rfl⟩⟩
    | _ => cases hr
  | waits _ _ ht | completes _ _ _ _ ht | stays _ _ _ _ ht | keeps _ _ _ ht _ | accepts _ _ _ _ _ ht
  | clears _ _ _ _ _ ht | aborts _ _ _ _ _ ht | setsIe _ _ _ _ ht =>
    exact .inr ⟨.inl (by simp [ht]), .inl (by simp [ht]), .inl (by simp [ht]), .inl (by simp [ht])⟩

/-- Settles O49: accept, `CLEAR` and reset zero the four registers, a success writes its outcome, and a failure leaves
them alone as everything else does. -/
theorem resultsChangeOnlyAtThreeMoments : Obligations.ResultsChangeOnlyAtThreeMoments := by
  intro s t hstep
  cases step_kind hstep with
  | completes hbusy rest _ _ ht =>
    obtain ⟨r, hok, hend⟩ | ⟨f, -, hend⟩ := afterCompletion_cases Config.width (s.withSchedule rest)
    · rw [ht, hend]
      exact .inr (.inr ⟨hbusy, rfl, rfl, hok⟩)
    · rw [ht, hend]
      exact .inl ⟨rfl, rfl, rfl, rfl⟩
  | resets p rest hsched ht =>
    subst ht
    exact .inr (.inl ⟨⟨rfl, rfl, rfl, rfl⟩, .inr ⟨p, rest, hsched⟩⟩)
  | accepts v rest hsched hidle _ ht | clears v rest hsched hidle _ ht =>
    subst ht
    exact .inr (.inl ⟨⟨rfl, rfl, rfl, rfl⟩, .inl ⟨v, rest, hsched, hidle⟩⟩)
  | waits _ _ ht | stays _ _ _ _ ht | keeps _ _ _ ht _ | aborts _ _ _ _ _ ht | setsIe _ _ _ _ ht
  | stores _ _ _ _ _ _ ht => exact .inl (by simp [ht])

/-- Settles O50: `CUR_CMD` is written by accept and `CLEAR`, with the word presented; `IE` by a `CTRL` write. -/
theorem commandAndEnableChangeOnlyByTheirWrites : Obligations.CommandAndEnableChangeOnlyByTheirWrites := by
  intro s t hstep
  cases step_kind hstep with
  | resets p rest hsched _ => exact .inl ⟨p, rest, hsched⟩
  | accepts v rest hsched hidle _ ht =>
    subst ht
    exact .inr ⟨.inr ⟨v, rest, hsched, hidle, rfl⟩, .inl rfl⟩
  | clears v rest hsched hidle hcmd ht =>
    subst ht
    exact .inr ⟨.inr ⟨v, rest, hsched, hidle, hcmd.symm⟩, .inl rfl⟩
  | aborts v rest hsched _ _ ht | setsIe v rest hsched _ ht =>
    subst ht
    exact .inr ⟨.inl rfl, .inr ⟨v, rest, hsched, rfl⟩⟩
  | waits _ _ ht | completes _ _ _ _ ht | stays _ _ _ _ ht | keeps _ _ _ ht _ | stores _ _ _ _ _ _ ht =>
    exact .inr ⟨.inl (by simp [ht]), .inl (by simp [ht])⟩

/-- Settles O55: each case of a step is one of the statement's clauses; a completion's `FAIL` and `ERRCODE` go by the
outcome (R62, R104). -/
theorem statusFlagsChangeOnlyAt : Obligations.StatusFlagsChangeOnlyAt := by
  intro s t hstep
  cases step_kind hstep with
  | completes hbusy rest hsched _ ht =>
    refine .inr (.inr (.inl ⟨hbusy, by rw [ht, afterCompletion_busy], by rw [ht, afterCompletion_done],
      completion_place hsched, ?_⟩))
    obtain ⟨r, hok, hend⟩ | ⟨f, herr, hend⟩ := afterCompletion_cases Config.width (s.withSchedule rest)
    · rw [ht, hend]
      exact .inl ⟨rfl, rfl, r, hok⟩
    · rw [ht, hend]
      exact .inr ⟨rfl, f, herr, rfl⟩
  | resets p rest hsched ht =>
    subst ht
    exact .inr (.inl ⟨rfl, rfl, rfl, .inr ⟨p, rest, hsched, rfl⟩⟩)
  | accepts v rest hsched hidle hcmd ht =>
    subst ht
    exact .inr (.inl ⟨rfl, rfl, rfl, .inl ⟨v, rest, hsched, hidle, fun _ => hcmd, fun _ => rfl⟩⟩)
  | clears v rest hsched hidle hcmd ht =>
    subst ht
    exact .inr (.inl ⟨rfl, rfl, rfl, .inl ⟨v, rest, hsched, hidle,
      fun hbusy => absurd (hidle.symm.trans hbusy) (by decide), fun hne => absurd hcmd hne⟩⟩)
  | aborts v rest hsched hbusy hv ht =>
    subst ht
    exact .inr (.inr (.inr ⟨hbusy, rfl, rfl, rfl, rfl, v, rest, hsched, hv⟩))
  | waits _ _ ht | stays _ _ _ _ ht | keeps _ _ _ ht _ | setsIe _ _ _ _ ht | stores _ _ _ _ _ _ ht =>
    exact .inl (by simp [ht])

end Sys2Proof.Machine
end

section
/-! PROOFS. What the read-only registers `STATUS` and `WIDTH` show (R14, R16), and the reset state (R23, R24). -/

namespace Sys2Proof.Machine

/-- `STATUS` is its low nibble, the three flags, below `ERRCODE`. -/
theorem statusValue_eq (s : State) :
    s.statusValue = 2 ^ 4 * s.errCode.toNat + (s.busy.toNat + 2 * s.done.toNat + 4 * s.fail.toNat) := by
  unfold State.statusValue
  omega

/-- The three flags as bits of a nibble. -/
theorem flags_testBit (busy done fail : Bool) :
    let v := busy.toNat + 2 * done.toNat + 4 * fail.toNat
    v < 8 ∧ v.testBit 0 = busy ∧ v.testBit 1 = done ∧ v.testBit 2 = fail ∧ v.testBit 3 = false := by
  revert busy done fail
  decide

/-- Settles O38: bits 0 to 3 are those of the flags' nibble, `ERRCODE` is what stands above it. -/
theorem statusFieldsStandInTheirBits : Obligations.StatusFieldsStandInTheirBits := by
  intro w s
  obtain ⟨hlt, h0, h1, h2, h3⟩ := flags_testBit s.busy s.done s.fail
  have hcode : s.errCode.toNat < 16 := s.errCode.isLt
  have hlow : ∀ i < 4, s.statusValue.testBit i =
      (s.busy.toNat + 2 * s.done.toNat + 4 * s.fail.toNat).testBit i := fun i hi => by
    rw [statusValue_eq, Nat.testBit_two_pow_mul_add _ (by omega), if_pos hi]
  have hval := statusValue_eq s
  change s.statusValue.testBit 0 = _ ∧ s.statusValue.testBit 1 = _ ∧ s.statusValue.testBit 2 = _ ∧
    s.statusValue.testBit 3 = _ ∧ s.statusValue / 16 = _ ∧ s.statusValue < 256
  exact ⟨(hlow 0 (by decide)).trans h0, (hlow 1 (by decide)).trans h1, (hlow 2 (by decide)).trans h2,
    (hlow 3 (by decide)).trans h3, by omega, by omega⟩

theorem stepResponse_transact {s : State} {req : Request} {rest : List Event}
    (h : s.schedule = .transact req :: rest) : stepResponse s = some (portResponse Config.width req s) := by
  simp [stepResponse, h]

/-- Settles O39: the two sides of the bound 65535 are the two branches of `Width.register` (R16); a write to `WIDTH`
reaches no operation of the block (R36). -/
theorem widthReadsTheParameter : Obligations.WidthReadsTheParameter := by
  refine ⟨fun s k hle => ?_, fun s k hgt => ?_, fun s => rfl, fun s v rest hsched => ⟨?_, ?_⟩⟩
  · exact if_pos hle
  · exact if_neg (by omega)
  · exact step_of_become ((nextAction_transact hsched).trans rfl)
  · rw [stepResponse_transact hsched]
    rfl

/-- Settles O41: with `BUSY = 0` and nothing presented the reset state waits (R112). -/
theorem resetStateIsAllZeroAndWaits : Obligations.ResetStateIsAllZeroAndWaits := by
  have hwaits : nextAction State.reset = .become State.reset := nextAction_nil rfl
  exact ⟨rfl, rfl, step_of_become hwaits⟩

end Sys2Proof.Machine
end

section
/-! PROOFS. The host port (20_memory.md): what a read returns, what an accepted write stores, and one law for every
access that answers with an error (R32, R106), whatever the reason. -/

namespace Sys2Proof.Machine

section
variable {s : State} {rest : List Event}

/-! ## Writes -/

theorem nextAction_write {addr : RegAddr} {v : Nat} (h : s.schedule = .transact (.write addr v) :: rest) :
    nextAction s = hostWrite (regAt addr) v (s.withSchedule rest) := nextAction_transact h

theorem writeOperand_idle (r : Reg) (v : Nat) (hidle : s.busy = false) : writeOperand r v s = setOperand r v s := by
  simp [writeOperand, hidle]

theorem writeOperand_busy (r : Reg) (v : Nat) (hbusy : s.busy = true) : writeOperand r v s = s := by
  simp [writeOperand, hbusy]

theorem hostWrite_operand {r : Reg} (hr : isOperandReg r = true) (v : Nat) (s : State) :
    hostWrite (some r) v s = .become (writeOperand r v s) := by
  cases r with
  | opa | opb | opm | opr => rfl
  | _ => cases hr

theorem writeError_operand {r : Reg} (hr : isOperandReg r = true) (s : State) : writeError (some r) s = s.busy := by
  cases r with
  | opa | opb | opm | opr => rfl
  | _ => cases hr

/-- An operand write with `BUSY = 0` stores its value (R33). -/
theorem step_operand_write {r : Reg} {v : Nat} (hr : isOperandReg r = true) (hidle : s.busy = false)
    (h : s.schedule = .transact (.write (regAddr r) v) :: rest) :
    step s = .next (setOperand r v (s.withSchedule rest)) := by
  refine step_of_become ?_
  rw [nextAction_write h, regAt_regAddr, hostWrite_operand hr, writeOperand_idle (s := s.withSchedule rest) r v hidle]

/-- The response to an operand write with `BUSY = 0` (R33). -/
theorem stepResponse_operand_write {r : Reg} {v : Nat} (hr : isOperandReg r = true) (hidle : s.busy = false)
    (h : s.schedule = .transact (.write (regAddr r) v) :: rest) :
    stepResponse s = some { rdata := 0, error := false } := by
  rw [stepResponse_transact h, portResponse, regAt_regAddr, writeError_operand hr, hidle]

/-- A `CMD` write with `BUSY = 1` changes nothing, whether it would run `CLEAR` or start a command (R34). -/
theorem step_busy_cmd_write {v : Nat} (hbusy : s.busy = true)
    (h : s.schedule = .transact (.write (regAddr .cmd) v) :: rest) : step s = .next (s.withSchedule rest) := by
  have hact : nextAction s = writeCmd v (s.withSchedule rest) := nextAction_write h
  by_cases hc : commandWordOf v = 0x0F
  · rw [writeCmd_clear hc] at hact
    exact (step_of_run hact).trans (execClear_busy hbusy)
  · rw [writeCmd_other hc, withSchedule_busy, if_pos hbusy] at hact
    exact step_of_become hact

/-- A write that answers with an error changes nothing (R34 to R37). -/
theorem step_erring_write {addr : RegAddr} {v : Nat} (h : s.schedule = .transact (.write addr v) :: rest)
    (herr : writeError (regAt addr) s = true) : step s = .next (s.withSchedule rest) := by
  have hact := nextAction_write h
  cases hreg : regAt addr with
  | none => exact step_of_become (by rw [hact, hreg]; rfl)
  | some r =>
    rw [hreg] at hact herr
    cases r with
    | cmd => exact step_busy_cmd_write herr ((regAt_eq_some_iff addr .cmd).mp hreg ▸ h)
    | ctrl => cases herr
    | status | width | res0 | res1 | res2 | res3 => exact step_of_become hact
    | opa | opb | opm | opr =>
      rw [hostWrite_operand rfl, writeOperand_busy (s := s.withSchedule rest) _ v herr] at hact
      exact step_of_become hact

/-! ## Reads, and accesses in error -/

/-- A read never changes any state (R31). -/
theorem step_read {addr : RegAddr} (h : s.schedule = .transact (.read addr) :: rest) :
    step s = .next (s.withSchedule rest) := step_of_become (nextAction_transact h)

/-- An access that answers with an error changes nothing and returns 0 (R106). -/
theorem erring_access {req : Request} (h : s.schedule = .transact req :: rest)
    (herr : (portResponse Config.width req s).error = true) :
    step s = .next (s.withSchedule rest) ∧ stepResponse s = some { rdata := 0, error := true } := by
  rw [stepResponse_transact h]
  cases req with
  | read addr =>
    have hreg : regAt addr = none := Option.isNone_iff_eq_none.mp herr
    refine ⟨step_read h, ?_⟩
    rw [portResponse, hreg]
    rfl
  | write addr v =>
    have hwerr : writeError (regAt addr) s = true := herr
    refine ⟨step_erring_write h hwerr, ?_⟩
    rw [portResponse, hwerr]

/-- With `BUSY = 1` in a legal state a read from `0x8` on returns 0: the result registers were cleared at the accept
(R26 item 1), and the addresses after them are reserved. -/
theorem readValue_busy_result {w : Width} {addr : RegAddr} (hinv : s.Inv w) (hbusy : s.busy = true)
    (haddr : 0x8 ≤ addr.toNat) : readValue w (regAt addr) s = 0 := by
  obtain ⟨-, -, -, h0, h1, h2, h3⟩ := hinv.busy_clear hbusy
  cases hreg : regAt addr with
  | none => rfl
  | some r =>
    rw [(regAt_eq_some_iff addr r).mp hreg] at haddr
    cases r with
    | res0 => exact h0
    | res1 => exact h1
    | res2 => exact h2
    | res3 => exact h3
    | _ => exact absurd haddr (by decide)

end

/-! ## The statements -/

/-- Settles O36: an address names a register, whose value is the chain's entry at that register's address, or it is
reserved, and then no test of the chain holds. -/
theorem readsReturnTheRegisters : Obligations.ReadsReturnTheRegisters := by
  intro s addr rest h
  have hresp := stepResponse_transact h
  refine ⟨step_read h, ?_, fun hinv hbusy haddr r hr => ?_⟩
  · rw [hresp, portResponse]
    cases hreg : regAt addr with
    | some r =>
      rw [(regAt_eq_some_iff addr r).mp hreg]
      cases r <;> rfl
    | none =>
      have hreserved := (regAt_eq_none_iff addr).mp hreg
      have hne : ∀ a : RegAddr, a.toNat < 0xC → addr ≠ a := by
        rintro a ha rfl
        omega
      simp (disch := decide) [hne, hreserved, readValue]
  · rw [hresp] at hr
    cases hr
    exact readValue_busy_result hinv hbusy haddr

/-- Settles O5: `CLEAR`'s is the one word that a `CMD` write runs at once. -/
theorem stepRunsClearWhenItsWordIsWritten : Obligations.StepRunsClearWhenItsWordIsWritten := by
  intro s v rest hdec h
  have hact : nextAction s = writeCmd v (s.withSchedule rest) := nextAction_write h
  rw [writeCmd_clear ((decodeWord_clear_iff _).mp hdec)] at hact
  exact step_of_run hact

/-- Settles O32: the four addresses are those of the four operand registers. -/
theorem operandWriteStoresItsValue : Obligations.OperandWriteStoresItsValue := by
  intro s v rest hidle
  refine ⟨step_operand_write (r := .opa) rfl hidle, step_operand_write (r := .opb) rfl hidle,
    step_operand_write (r := .opm) rfl hidle, step_operand_write (r := .opr) rfl hidle, fun addr haddr h => ?_⟩
  obtain ⟨r, hr, rfl⟩ : ∃ r, isOperandReg r = true ∧ addr = regAddr r := by
    fin_cases haddr
    exacts [⟨.opa, rfl, rfl⟩, ⟨.opb, rfl, rfl⟩, ⟨.opm, rfl, rfl⟩, ⟨.opr, rfl, rfl⟩]
  exact stepResponse_operand_write hr hidle h

/-- Settles O33: at these addresses a write's error is `BUSY` itself. -/
theorem writesWhileBusyAreRefused : Obligations.WritesWhileBusyAreRefused := by
  intro s addr v rest hbusy haddr h
  refine erring_access h (Eq.trans ?_ hbusy)
  fin_cases haddr <;> rfl

/-- Settles O34: at these addresses a write errs in every state. -/
theorem readOnlyRegistersRefuseWrites : Obligations.ReadOnlyRegistersRefuseWrites := by
  intro s addr v rest haddr h
  refine erring_access h ?_
  fin_cases haddr <;> rfl

/-- Settles O35: a reserved address names no register, and without one both kinds of access err. -/
theorem reservedAddressesAnswerWithAnError : Obligations.ReservedAddressesAnswerWithAnError := by
  intro s addr v req rest haddr hreq h
  have hreg : regAt addr = none := (regAt_eq_none_iff addr).mpr haddr
  refine erring_access h ?_
  obtain rfl | rfl := hreq <;> rw [portResponse, hreg] <;> rfl

end Sys2Proof.Machine
end

section
/-! PROOFS. The encoding (30_encoding.md): the opcode map both ways, the illegal words, and the host's `WAIT`. -/

namespace Sys2Proof

/-! ## The decoder -/

/-- Decoding finds the one word of a command and leaves the words after it (R54). -/
theorem decode_encode (i : Instr) (rest : List CommandWord) : decode (encode i ++ rest) = .ok (i, rest) := by
  change decode (encodeWord i :: rest) = _
  rw [decode, decodeWord_encodeWord]

/-- An illegal word is rejected whatever follows it. -/
theorem decode_cons_of_error {c : CommandWord} {e : DecodeError} (h : decodeWord c = .error e)
    (rest : List CommandWord) : decode (c :: rest) = .error e := by
  rw [decode, h]

/-- The nine words of the map by their numbers (R51). -/
theorem exists_encodeWord_eq_iff (c : CommandWord) :
    (∃ i, encodeWord i = c) ↔ (0x01 ≤ c.toNat ∧ c.toNat ≤ 0x08) ∨ c.toNat = 0x0F := by
  constructor
  · rintro ⟨i, rfl⟩
    cases i <;> decide
  · have hword : ∀ n, (0x01 ≤ n ∧ n ≤ 0x08) ∨ n = 0x0F → ∃ i, encodeWord i = BitVec.ofNat 8 n := by
      rintro n (⟨hlow, hhigh⟩ | rfl)
      · interval_cases n
        exacts [⟨.gcd, rfl⟩, ⟨.modinv, rfl⟩, ⟨.modpow, rfl⟩, ⟨.totient, rfl⟩, ⟨.pubexp, rfl⟩, ⟨.keygen, rfl⟩,
          ⟨.factor, rfl⟩, ⟨.crack, rfl⟩]
      · exact ⟨.clear, rfl⟩
    simpa using hword c.toNat

/-- A word is illegal just when it is no command's word (R53, R57). -/
theorem decodeWord_eq_illegal_iff (c : CommandWord) :
    decodeWord c = .error (.illegalCommand c) ↔ ¬ ∃ i, encodeWord i = c := by
  obtain ⟨i, hdec, henc⟩ | ⟨hdec, hnone⟩ := decodeWord_cases c
  · exact iff_of_false (by rw [hdec]; nofun) (not_not_intro ⟨i, henc⟩)
  · exact iff_of_true hdec fun ⟨i, henc⟩ => hnone i henc

/-- The illegal words by their numbers (R53): what the map's nine numbers leave. -/
theorem decodeWord_eq_illegal_iff_toNat (c : CommandWord) :
    decodeWord c = .error (.illegalCommand c) ↔
      c.toNat = 0x00 ∨ (0x09 ≤ c.toNat ∧ c.toNat ≤ 0x0E) ∨ 0x10 ≤ c.toNat := by
  rw [decodeWord_eq_illegal_iff, exists_encodeWord_eq_iff]
  omega

/-- Settles O3: a legal word is its command's, and the illegal ones are the numbers the map leaves out. -/
theorem decodingIsExactlyTheOpcodeMap : Obligations.DecodingIsExactlyTheOpcodeMap :=
  ⟨decodeWord_eq_ok_iff, decodeWord_eq_illegal_iff_toNat⟩

/-- Settles O2: every command is well formed, so the hypothesis is not needed (R50, R52). -/
theorem decodeInvertsEncode : Obligations.DecodeInvertsEncode :=
  fun i rest _ => decode_encode i rest

/-- Settles O1: each of the nine words is the encoding of its command, and the two illegal words have numbers outside
the map. -/
theorem opcodeWordsDecodeToTheirCommands : Obligations.OpcodeWordsDecodeToTheirCommands :=
  ⟨decode_encode .gcd [], decode_encode .modinv [], decode_encode .modpow [], decode_encode .totient [],
    decode_encode .pubexp [], decode_encode .keygen [], decode_encode .factor [], decode_encode .crack [],
    decode_encode .clear [],
    decode_cons_of_error ((decodeWord_eq_illegal_iff_toNat 0x11).mpr (by decide)) [],
    decode_cons_of_error ((decodeWord_eq_illegal_iff_toNat 0x00).mpr (by decide)) [], rfl⟩

end Sys2Proof

namespace Sys2Proof.Machine

/-! ## `WAIT` -/

section
variable {s : State} {rest : List Event}

/-- A `WAIT` on a running command is its completion, and stays in the schedule (log entry 5). -/
theorem step_wait_busy (hbusy : s.busy = true) (hcmd : s.curCmd ≠ 0x0F) (h : s.schedule = .wait :: rest) :
    step s = .next (s.afterCompletion Config.width) :=
  step_of_completion (by rw [nextAction_wait h, if_pos hbusy]) hcmd

/-- A `WAIT` on an idle block ends, as a read of `STATUS` that changes nothing (R55). -/
theorem step_wait_idle (hidle : s.busy = false) (h : s.schedule = .wait :: rest) :
    step s = .next (s.withSchedule rest) :=
  step_of_become (by simp [nextAction_wait h, hidle])

theorem stepResponse_wait_idle (hidle : s.busy = false) (h : s.schedule = .wait :: rest) :
    stepResponse s = some { rdata := s.statusValue, error := false } := by
  simp [stepResponse, h, hidle, portResponse, regAt_regAddr, readValue]

end

/-- Bit 0 of `STATUS` is `BUSY` (R14). -/
theorem statusValue_testBit_zero (s : State) : s.statusValue.testBit 0 = s.busy :=
  (statusFieldsStandInTheirBits Config.width s).1

/-- Settles O31: the completion leaves the block idle with the `WAIT` still next, and there the `WAIT` ends. -/
theorem waitLastsUntilTheCompletion : Obligations.WaitLastsUntilTheCompletion := by
  intro s rest hbusy hcmd h
  have hcompletes := step_wait_busy hbusy hcmd h
  have hidle : (s.afterCompletion Config.width).busy = false := afterCompletion_busy s Config.width
  have hwait : (s.afterCompletion Config.width).schedule = .wait :: rest := by rw [afterCompletion_schedule, h]
  refine ⟨hcompletes, ?_, _, stepResponse_wait_idle hidle hwait, rfl, ?_⟩
  · rw [core_run_succ 1 hcompletes, core_run_succ 0 (step_wait_idle hidle hwait)]
    rfl
  · rw [statusValue_testBit_zero, hidle]

end Sys2Proof.Machine
end

section
/-! PROOFS. The command lifecycle (40_command_lifecycle.md): the accept step, the completion step wherever it stands in
a schedule, what an outcome depends on, and the end of every run. -/

namespace Sys2Proof.Machine

section
variable {s : State} {rest : List Event}

/-! ## The accept step -/

/-- A `CMD` write of any word but `CLEAR`'s on an idle block accepts it (R60). -/
theorem step_accepted_cmd_write {v : Nat} (hidle : s.busy = false) (hcmd : commandWordOf v ≠ 0x0F)
    (h : s.schedule = .transact (.write (regAddr .cmd) v) :: rest) :
    step s = .next (accept (commandWordOf v) (s.withSchedule rest)) := by
  have hact : nextAction s = writeCmd v (s.withSchedule rest) := nextAction_write h
  rw [writeCmd_other hcmd, withSchedule_busy, hidle] at hact
  exact step_of_become hact

theorem stepResponse_cmd_write {v : Nat} (h : s.schedule = .transact (.write (regAddr .cmd) v) :: rest) :
    stepResponse s = some { rdata := 0, error := s.busy } := by
  rw [stepResponse_transact h, portResponse, regAt_regAddr, writeError]

theorem irq_accept (c : CommandWord) (s : State) : (accept c s).irq = false := by
  rw [State.irq, accept_done, Bool.false_and]

/-! ## The completion step -/

/-- With `BUSY = 1` and nothing left in the schedule the next step is the completion (log entry 3). -/
theorem nextAction_nil_busy (hbusy : s.busy = true) (h : s.schedule = []) : nextAction s = completion s := by
  rw [nextAction_nil h, if_pos hbusy]

/-- With `BUSY = 1` a completion mark is taken (log entry 2). -/
theorem nextAction_complete_busy (hbusy : s.busy = true) (h : s.schedule = .complete :: rest) :
    nextAction s = completion (s.withSchedule rest) := by
  rw [nextAction_complete h, if_pos hbusy]

/-- With `BUSY = 1` a `WAIT` lets the core complete (log entry 5). -/
theorem nextAction_wait_busy (hbusy : s.busy = true) (h : s.schedule = .wait :: rest) :
    nextAction s = completion s := by
  rw [nextAction_wait h, if_pos hbusy]

theorem completion_of_decode {i : Instr} (hdec : decodeWord s.curCmd = .ok i) : completion s = .run i s := by
  rw [completion, hdec]

/-- A completion mark on a running command commits its outcome (R62, R104). -/
theorem step_complete_busy (hbusy : s.busy = true) (hcmd : s.curCmd ≠ 0x0F) (h : s.schedule = .complete :: rest) :
    step s = .next ((s.withSchedule rest).afterCompletion Config.width) :=
  step_of_completion (nextAction_complete_busy hbusy h) hcmd

theorem afterCompletion_of_ok {w : Width} {r : Results}
    (h : execOutcome w s.curCmd s.opa s.opb s.opm s.opr = .ok r) :
    s.afterCompletion w = s.completedOk r.r0 r.r1 r.r2 r.r3 := by
  rw [State.afterCompletion, h]

theorem afterCompletion_of_error {w : Width} {f : Failure}
    (h : execOutcome w s.curCmd s.opa s.opb s.opm s.opr = .error f) :
    s.afterCompletion w = s.completedErr f.code := by
  rw [State.afterCompletion, h]

theorem irq_afterCompletion (w : Width) (s : State) : (s.afterCompletion w).irq = s.ie := by
  rw [State.irq, afterCompletion_done, afterCompletion_ie, Bool.true_and]

end

/-! ## Loading a command word -/

theorem tableWord_toNat (c : CommandWord) : tableWord 8 c.toNat = c := by
  rw [tableWord, Nat.mod_eq_of_lt c.isLt, BitVec.ofNat_toNat, BitVec.setWidth_eq]

/-- A run command's word is loaded as accepted, with its completion next (log entry 8). -/
theorem loadCommand_run {i : Instr} (hi : i ≠ .clear) (s : State) :
    loadCommand (encodeWord i) s = accept (encodeWord i) (s.withSchedule (.complete :: s.schedule)) := by
  unfold loadCommand
  rw [decodeWord_encodeWord]
  cases i with
  | clear => exact absurd rfl hi
  | _ => rfl

/-! ## The statements on single commands -/

/-- Settles O25: the write is accepted, and `irq` is low because `DONE` is 0. -/
theorem acceptStartsTheCommand : Obligations.AcceptStartsTheCommand := by
  intro s v rest hidle hcmd h
  have hstep := step_accepted_cmd_write hidle hcmd h
  refine ⟨hstep, ?_, fun t ht => ?_⟩
  · rw [stepResponse_cmd_write h, hidle]
  · rw [hstep] at ht
    cases ht
    exact irq_accept _ _

/-- Settles O4: at each of its three places the step is the completion, which runs the command `CUR_CMD` decodes to. -/
theorem stepRunsTheCommandInCurCmd : Obligations.StepRunsTheCommandInCurCmd := by
  intro s i rest hbusy hdec
  refine ⟨fun h => ?_, fun h => ?_, fun h => ?_⟩
  · exact step_of_run ((nextAction_nil_busy hbusy h).trans (completion_of_decode hdec))
  · exact step_of_run ((nextAction_complete_busy hbusy h).trans (completion_of_decode hdec))
  · exact step_of_run ((nextAction_wait_busy hbusy h).trans (completion_of_decode hdec))

/-- Settles O26: the step is the completion, and its two ends are those of the outcome. -/
theorem completionCommitsTheOutcome : Obligations.CompletionCommitsTheOutcome := by
  intro s hbusy hcmd h
  have hstep := step_of_completion (nextAction_nil_busy hbusy h) hcmd
  refine ⟨fun r hok => ?_, fun f herr => ?_, fun t ht => ?_⟩
  · exact hstep.trans (congrArg _ (afterCompletion_of_ok hok))
  · exact hstep.trans (congrArg _ (afterCompletion_of_error herr))
  · rw [hstep] at ht
    cases ht
    exact irq_afterCompletion _ _

/-- Settles O27: the accept step leaves the block busy with the mark next, and the completion works on what it left. -/
theorem acceptedCommandCompletesOnItsOperands : Obligations.AcceptedCommandCompletesOnItsOperands := by
  intro s v rest hidle hcmd h
  have haccept := step_accepted_cmd_write hidle hcmd h
  have hend := step_complete_busy (s := accept (commandWordOf v) (s.withSchedule (.complete :: rest))) rfl hcmd rfl
  exact (core_run_succ 1 haccept).trans (core_run_succ 0 hend)

/-- Settles O6: a run command is loaded onto a busy block with a completion mark next, `CLEAR` as its own `CMD` write
on an idle one. -/
theorem loadedCommandRunsNext : Obligations.LoadedCommandRunsNext := by
  refine ⟨fun s i hi => ?_, fun s => ?_⟩
  · rw [State.withFetchWord, tableWord_toNat, loadCommand_run hi]
    obtain ⟨-, hmark, -⟩ := stepRunsTheCommandInCurCmd
      (accept (encodeWord i) (s.withSchedule (.complete :: s.schedule))) i s.schedule rfl (decodeWord_encodeWord i)
    exact hmark rfl
  · exact stepRunsClearWhenItsWordIsWritten (s.withFetchWord 8 0x0F) 0x0F s.schedule rfl rfl

/-! ## What an outcome depends on -/

/-- `Exec` looks only at the operands the command reads (R65, the table of R11). -/
theorem execOutcome_of_sameOperandsRead {i : Instr} {s t : State} (w : Width) (h : sameOperandsRead i s t) :
    execOutcome w (encodeWord i) s.opa s.opb s.opm s.opr = execOutcome w (encodeWord i) t.opa t.opb t.opm t.opr := by
  rw [execOutcome_encodeWord, execOutcome_encodeWord]
  cases i with
  | gcd | totient =>
    obtain ⟨ha, hb⟩ := h
    simp only [ha, hb]
  | modinv | crack =>
    obtain ⟨ha, hm⟩ := h
    simp only [ha, hm]
  | modpow =>
    obtain ⟨ha, hb, hm⟩ := h
    simp only [ha, hb, hm]
  | pubexp | keygen =>
    obtain ⟨ha, hb, hr⟩ := h
    simp only [ha, hb, hr]
  | factor => exact congrArg factorOutcome h
  | clear => rfl

/-- A success on a legal busy state shows `STATUS = 0x02`: `FAIL` and `ERRCODE` are still 0 (R62, R26 item 1). -/
theorem statusValue_succeed {w : Width} {s : State} (hinv : s.Inv w) (hbusy : s.busy = true) (r : Results) :
    (succeed r s).statusValue = 2 := by
  obtain ⟨-, hfail, hcode, -⟩ := hinv.busy_clear hbusy
  simp [State.statusValue, hfail, hcode]

/-- A failure shows `BUSY = 0`, `DONE = 1`, `FAIL = 1` and its code (R104). -/
theorem statusValue_raise (f : Failure) (s : State) : (raise f s).statusValue = 6 + 16 * f.code.toNat := by
  simp [State.statusValue]

/-- Settles O23: the two states have one outcome, and what it does not write is 0 in both since their accept steps. -/
theorem outcomeDependsOnOperandsReadOnly : Obligations.OutcomeDependsOnOperandsReadOnly := by
  intro i s t s' t' hread hsbusy htbusy hsinv htinv hi hs ht
  rw [exec_eq_finish hi] at hs ht
  rw [execOutcome_of_sameOperandsRead Config.width hread] at hs
  cases hout : execOutcome Config.width (encodeWord i) t.opa t.opb t.opm t.opr with
  | ok r =>
    rw [hout, finish_ok] at hs ht
    cases hs
    cases ht
    exact ⟨rfl, rfl, rfl, rfl, (statusValue_succeed hsinv hsbusy r).trans (statusValue_succeed htinv htbusy r).symm⟩
  | error f =>
    rw [hout, finish_error] at hs ht
    cases hs
    cases ht
    obtain ⟨-, -, -, hs0, hs1, hs2, hs3⟩ := hsinv.busy_clear hsbusy
    obtain ⟨-, -, -, ht0, ht1, ht2, ht3⟩ := htinv.busy_clear htbusy
    exact ⟨hs0.trans ht0.symm, hs1.trans ht1.symm, hs2.trans ht2.symm, hs3.trans ht3.symm,
      (statusValue_raise f s).trans (statusValue_raise f t).symm⟩

/-! ## The end of every run -/

/-- A bound on the steps until the block is idle with nothing presented: an event can take two, its own and that of the
command it starts or waits for; a running command owes one. -/
def State.stepsOwed (s : State) : Nat := 2 * s.schedule.length + s.busy.toNat

section
variable {s t : State}

theorem stepsOwed_eq_zero_iff : s.stepsOwed = 0 ↔ s.busy = false ∧ s.schedule = [] := by
  simp [State.stepsOwed, and_comm]

theorem stepsOwed_le (s : State) : s.stepsOwed ≤ 2 * s.schedule.length + 1 :=
  Nat.add_le_add_left s.busy.toNat_le _

/-- Taking an event off lowers the bound, even where the event starts a command. -/
theorem stepsOwed_lt_of_tail {e : Event} (h : s.schedule = e :: t.schedule) : t.stepsOwed < s.stepsOwed := by
  have hle := stepsOwed_le t
  have hs : s.stepsOwed = 2 * (t.schedule.length + 1) + s.busy.toNat := by
    rw [State.stepsOwed, h, List.length_cons]
  omega

/-- A completion lowers the bound, even where it leaves the event that waited for it. -/
theorem stepsOwed_lt_of_completes (hs : s.busy = true) (ht : t.busy = false) (h : t.schedule = s.schedule) :
    t.stepsOwed < s.stepsOwed := by
  simp [State.stepsOwed, hs, ht, h]

/-- Every step of a legal state lowers the bound, but for the wait of an idle block with nothing presented (R112). -/
theorem stepsOwed_step (hinv : s.Inv Config.width) (hstep : step s = .next t) :
    t.stepsOwed < s.stepsOwed ∨ t.stepsOwed = 0 := by
  cases step_kind hstep with
  | waits hidle hnil ht => exact .inr (ht ▸ stepsOwed_eq_zero_iff.mpr ⟨hidle, hnil⟩)
  | completes hbusy rest hsched _ ht =>
    have hidle : t.busy = false := by rw [ht, afterCompletion_busy]
    have hrest : t.schedule = rest := by rw [ht, afterCompletion_schedule, withSchedule_schedule]
    obtain ⟨hnil, rfl⟩ | ⟨-, -, rfl⟩ | hmark := hsched
    · exact .inl (stepsOwed_lt_of_completes hbusy hidle (hrest.trans hnil.symm))
    · exact .inl (stepsOwed_lt_of_completes hbusy hidle hrest)
    · exact .inl (stepsOwed_lt_of_tail (hrest ▸ hmark))
  | stays hbusy _ _ hcmd _ => exact absurd hcmd (hinv.busy_not_clear hbusy)
  | keeps _ _ hsched ht _ | resets _ _ hsched ht | accepts _ _ hsched _ _ ht | clears _ _ hsched _ _ ht
  | aborts _ _ hsched _ _ ht | setsIe _ _ hsched _ ht =>
    subst ht
    exact .inl (stepsOwed_lt_of_tail hsched)
  | stores r v rest hsched _ _ ht =>
    subst ht
    exact .inl (stepsOwed_lt_of_tail (by rw [hsched, setOperand_schedule, withSchedule_schedule]))

end

/-- A run of as many steps as the bound says ends idle with nothing presented. -/
theorem run_ends_of_stepsOwed_le (k : Nat) {s : State} (hinv : s.Inv Config.width) (hk : s.stepsOwed ≤ k) :
    ∃ t : State, Host.Core.run Sys2Proof.core k s = .next t ∧ t.stepsOwed = 0 := by
  induction k generalizing s with
  | zero => exact ⟨s, rfl, Nat.le_zero.mp hk⟩
  | succ k ih =>
    obtain ⟨u, hstep, -⟩ := step_total s
    have hu : u.stepsOwed ≤ k := by
      obtain hlt | hzero := stepsOwed_step hinv hstep <;> omega
    obtain ⟨t, hrun, ht⟩ := ih (everyStepKeepsTheInvariant s u hinv hstep) hu
    exact ⟨t, (core_run_succ k hstep).trans hrun, ht⟩

/-- Settles O51: the statement's number of steps is at least the bound. -/
theorem everyScheduleEndsIdle : Obligations.EveryScheduleEndsIdle := by
  intro s hinv
  obtain ⟨t, hrun, ht⟩ := run_ends_of_stepsOwed_le (2 * s.schedule.length + 1) hinv (stepsOwed_le s)
  exact ⟨t, hrun, stepsOwed_eq_zero_iff.mp ht⟩

end Sys2Proof.Machine
end

section
/-! PROOFS. Modular arithmetic (41_modular_arithmetic.md): what `GCD`, `MODINV` and `MODPOW` leave, reducing the first
operand beforehand, and the round-trip law. -/

namespace Sys2Proof.Machine

/-! ## The pure functions -/

/-- `modinv_fn` gives any inverse in `[0, m)`, there being only one (R72). -/
theorem modinvFn_of_inverse {e m d : Nat} (hlt : d < m) (hinv : (e * d) % m = 1 % m) : modinvFn e m = .ok d := by
  have hg : Nat.gcd e m = 1 := Nat.coprime_of_mul_modEq_one d hinv
  obtain ⟨d', hok, hlt', hinv'⟩ := modinvFn_coprime (Nat.ne_zero_of_lt hlt) hg
  rw [hok, inverse_unique hg hlt' hlt hinv' hinv]

/-- Reducing `e` beforehand changes nothing, failures included (R72). -/
theorem modinvFn_mod (e m : Nat) : modinvFn (e % m) m = modinvFn e m := by
  by_cases hm : m = 0
  · rw [hm, Nat.mod_zero]
  have hgcd : Nat.gcd (e % m) m = Nat.gcd e m := (Nat.mod_modEq e m).gcd_eq
  by_cases hg : Nat.gcd e m = 1
  · obtain ⟨d, hok, hlt, hinv⟩ := modinvFn_coprime hm hg
    rw [hok]
    exact modinvFn_of_inverse hlt (((Nat.mod_modEq e m).mul_right d).trans hinv)
  · rw [modinvFn_not_coprime hm hg, modinvFn_not_coprime hm (hgcd ▸ hg)]

/-- Reducing the base beforehand changes nothing (R73). -/
theorem modpowFn_mod (b k m : Nat) : modpowFn (b % m) k m = modpowFn b k m := by
  by_cases hm : m = 0
  · rw [hm, Nat.mod_zero]
  · rw [modpowFn_pos _ _ hm, modpowFn_pos _ _ hm, ← Nat.pow_mod]

/-! ## The commands -/

/-- `GCD` (R74). -/
theorem exec_gcd (s : State) : exec .gcd s = .next (s.completedOk (Nat.gcd s.opa s.opb) 0 0 0) := by
  rw [exec_eq_finish (i := .gcd) nofun, execOutcome_encodeWord]
  simp only [gcdOutcome_eq, finish_ok, succeed_eq_completedOk]

/-- Settles O7: the model's gcd is Mathlib's (`gcdFn_eq_gcd`). -/
theorem gcdReturnsTheGreatestCommonDivisor : Obligations.GcdReturnsTheGreatestCommonDivisor :=
  ⟨rfl, exec_gcd⟩

/-- `MODINV` commits its arm of `Exec` on `OPA` and `OPM` (R75). -/
theorem exec_modinv (s : State) : exec .modinv s = finish (modinvOutcome s.opa s.opm) s :=
  exec_eq_finish (i := .modinv) nofun s

/-- `MODPOW` commits its arm of `Exec` on `OPA`, `OPB` and `OPM` (R76). -/
theorem exec_modpow (s : State) : exec .modpow s = finish (modpowOutcome s.opa s.opb s.opm) s :=
  exec_eq_finish (i := .modpow) nofun s

section
variable {s : State}

theorem exec_modinv_of_ok {d : Nat} (h : modinvFn s.opa s.opm = .ok d) :
    exec .modinv s = .next (s.completedOk d 0 0 0) := by
  rw [exec_modinv, modinvOutcome, h]
  rfl

theorem exec_modinv_of_error {f : Failure} (h : modinvFn s.opa s.opm = .error f) :
    exec .modinv s = .next (s.completedErr f.code) := by
  rw [exec_modinv, modinvOutcome, h]
  rfl

theorem exec_modpow_of_zero (hm : s.opm = 0) : exec .modpow s = .next (s.completedErr 6) := by
  rw [exec_modpow, modpowOutcome, hm, modpowFn_zero]
  rfl

theorem exec_modpow_of_pos (hm : s.opm ≠ 0) :
    exec .modpow s = .next (s.completedOk (s.opa ^ s.opb % s.opm) 0 0 0) := by
  rw [exec_modpow, modpowOutcome, modpowFn_pos _ _ hm]
  rfl

end

/-- Settles O8: the three clauses are the three cases of `modinv_fn`. -/
theorem modinvReturnsTheInverse : Obligations.ModinvReturnsTheInverse := by
  refine ⟨rfl, fun s => ⟨fun hm => ?_, fun hm hg => ?_, fun hm hg => ?_⟩⟩
  · exact exec_modinv_of_error (hm ▸ modinvFn_zero s.opa)
  · exact exec_modinv_of_error (modinvFn_not_coprime hm hg)
  · obtain ⟨d, hok, hlt, hinv⟩ := modinvFn_coprime hm hg
    exact ⟨d, hlt, hinv, exec_modinv_of_ok hok⟩

/-- Settles O9: square-and-multiply computes the exact power reduced (`modpowFn_pos`). -/
theorem modpowReturnsThePower : Obligations.ModpowReturnsThePower :=
  ⟨rfl, fun _ => ⟨exec_modpow_of_zero, exec_modpow_of_pos⟩⟩

/-! ## Reducing the first operand -/

theorem modinvOutcome_mod (e m : Nat) : modinvOutcome (e % m) m = modinvOutcome e m := by
  rw [modinvOutcome, modinvFn_mod, modinvOutcome]

theorem modpowOutcome_mod (b k m : Nat) : modpowOutcome (b % m) k m = modpowOutcome b k m := by
  rw [modpowOutcome, modpowFn_mod, modpowOutcome]

/-- Committing an outcome neither reads nor writes `OPA`. -/
theorem finish_with_opa (outcome : Except Failure Results) (s : State) (a : Nat) :
    ∃ t, finish outcome s = .next t ∧ finish outcome { s with opa := a } = .next { t with opa := a } := by
  cases outcome with
  | ok r => exact ⟨_, rfl, rfl⟩
  | error f => exact ⟨_, rfl, rfl⟩

/-- Settles O19: the two runs commit one outcome. -/
theorem operandsMayBeReducedFirst : Obligations.OperandsMayBeReducedFirst := by
  intro s _
  obtain ⟨t, hinv, hinv'⟩ := finish_with_opa (modinvOutcome s.opa s.opm) s (s.opa % s.opm)
  obtain ⟨u, hpow, hpow'⟩ := finish_with_opa (modpowOutcome s.opa s.opb s.opm) s (s.opa % s.opm)
  simp only [exec_modinv, exec_modpow, modinvOutcome_mod, modpowOutcome_mod]
  exact ⟨t, u, hinv, hinv', hpow, hpow'⟩

/-! ## The round-trip law -/

section
variable {p q : Nat} (hp : p.Prime) (hq : q.Prime) (hne : p ≠ q)
include hp hq hne

/-- Two distinct primes are not both 2, so `φ` is at least 2. -/
theorem one_lt_totient_of_ne : 1 < (p - 1) * (q - 1) := by
  have h2p := hp.two_le
  have h2q := hq.two_le
  obtain h | h : 2 ≤ p - 1 ∨ 2 ≤ q - 1 := by omega
  · exact lt_of_lt_of_le h (Nat.le_mul_of_pos_right _ (by omega))
  · exact lt_of_lt_of_le h (Nat.le_mul_of_pos_left _ (by omega))

/-- A power `k ≡ 1` modulo `φ` is the identity modulo `p * q`, for symbols that `p` or `q` divides too: by Fermat's
little theorem it is so modulo each of the primes. -/
theorem pow_modEq_self {k : Nat} (hk : k ≡ 1 [MOD (p - 1) * (q - 1)]) (x : Nat) : x ^ k ≡ x [MOD p * q] := by
  have hphi := one_lt_totient_of_ne hp hq hne
  have hpos : 1 ≤ k := by
    refine Nat.one_le_iff_ne_zero.mpr ?_
    rintro rfl
    exact absurd (hk.eq_of_lt_of_lt (by omega) hphi) (by decide)
  have hdvd : (p - 1) * (q - 1) ∣ k - 1 := (Nat.modEq_iff_dvd' hpos).mp hk.symm
  have hfermat : ∀ r : Nat, r.Prime → r - 1 ∣ k - 1 → x ^ k ≡ x [MOD r] := by
    intro r hr hrdvd
    have hint := Int.ModEq.pow_eq_pow hr hrdvd hpos one_pos x
    rw [pow_one] at hint
    exact_mod_cast hint
  exact (Nat.modEq_and_modEq_iff_modEq_mul ((Nat.coprime_primes hp hq).mpr hne)).mp
    ⟨hfermat p hp (dvd_of_mul_right_dvd hdvd), hfermat q hq (dvd_of_mul_left_dvd hdvd)⟩

/-- Two `MODPOW` runs under inverse exponents give `x mod n` (R78). -/
theorem exec_modpow_roundTrip {e d x : Nat} {enc mid dec : State}
    (hinv : (e * d) % ((p - 1) * (q - 1)) = 1 % ((p - 1) * (q - 1)))
    (hx : enc.opa = x) (he : enc.opb = e) (hn : enc.opm = p * q) (henc : exec .modpow enc = .next mid)
    (hmid : dec.opa = mid.res0) (hd : dec.opb = d) (hn' : dec.opm = p * q) :
    exec .modpow dec = .next (dec.completedOk (x % (p * q)) 0 0 0) := by
  have hpos : p * q ≠ 0 := Nat.mul_ne_zero hp.ne_zero hq.ne_zero
  have hcipher : mid.res0 = x ^ e % (p * q) := by
    rw [exec_modpow_of_pos (hn ▸ hpos), hx, he, hn] at henc
    cases henc
    rfl
  have hplain : (x ^ e % (p * q)) ^ d % (p * q) = x % (p * q) :=
    calc (x ^ e % (p * q)) ^ d % (p * q) = x ^ (e * d) % (p * q) := by rw [← Nat.pow_mod, ← pow_mul]
      _ = x % (p * q) := pow_modEq_self hp hq hne hinv x
  rw [exec_modpow_of_pos (hn' ▸ hpos), hmid, hd, hn', hcipher, hplain]

end

/-- Settles O53: `MODINV` gives an exponent inverse to `e` modulo `φ`, and under the two `MODPOW` is undone. -/
theorem roundTripLaw : Obligations.RoundTripLaw := by
  intro p q e x inv key enc mid dec hp hq hne hg hie him hkey hx he hn henc hmid hd hn'
  have hphi := one_lt_totient_of_ne hp hq hne
  obtain ⟨d, hok, -, hinv⟩ := modinvFn_coprime (Nat.ne_zero_of_lt hphi) hg
  have hkeyd : key.res0 = d := by
    rw [exec_modinv_of_ok (by rw [hie, him, hok])] at hkey
    cases hkey
    rfl
  exact ⟨exec_modpow_roundTrip hp hq hne hinv hx he hn henc hmid (hd.trans hkeyd) hn', Nat.mod_eq_of_lt⟩

end Sys2Proof.Machine
end

section
/-! PROOFS. Key generation (42_key_generation.md): the scan for the public exponent, what `TOTIENT`, `PUBEXP` and
`KEYGEN` leave, how the three are one sequence, and what a key pair satisfies. -/

namespace Sys2Proof.Machine

/-! ## The scan -/

/-- `e` is the least candidate of R81: the first from `r` on that is coprime to `phi`, and not past `last`. -/
def LeastCandidate (r last phi e : Nat) : Prop :=
  r ≤ e ∧ e ≤ last ∧ Nat.gcd e phi = 1 ∧ ∀ y, r ≤ y → y < e → Nat.gcd y phi ≠ 1

section
variable {r last phi e e' n : Nat}

theorem LeastCandidate.le {y : Nat} (h : LeastCandidate r last phi e) (hy : r ≤ y) (hg : Nat.gcd y phi = 1) :
    e ≤ y := by
  obtain ⟨-, -, -, hmin⟩ := h
  exact not_lt.mp fun hlt => hmin y hy hlt hg

theorem LeastCandidate.unique (h : LeastCandidate r last phi e) (h' : LeastCandidate r last phi e') : e = e' := by
  have ⟨hre, _, hg, _⟩ := h
  have ⟨hre', _, hg', _⟩ := h'
  exact le_antisymm (h.le hre' hg') (h'.le hre hg)

/-- The candidate is 1 only where the scan starts at 1, and there it is, 1 being coprime to everything (R86). -/
theorem LeastCandidate.eq_one_iff (h : LeastCandidate r last phi e) (hr : 1 ≤ r) : e = 1 ↔ r = 1 := by
  have ⟨hre, _⟩ := h
  constructor
  · rintro rfl
    exact le_antisymm hre hr
  · intro hr1
    exact le_antisymm (h.le hr1.le (Nat.gcd_one_left phi)) (hr.trans hre)

theorem pubexpFn_eq_ok_iff (h1 : 1 ≤ r) (h2 : r ≤ n / 2) :
    pubexpFn n phi r = .ok e ↔ LeastCandidate r (n - 2) phi e := by
  obtain ⟨x, hok, hx⟩ | ⟨herr, hnone⟩ := pubexpFn_in_range (phi := phi) h1 h2
  · rw [hok, Except.ok.injEq]
    exact ⟨fun hxe => hxe ▸ hx, LeastCandidate.unique hx⟩
  · rw [herr]
    exact ⟨nofun, fun ⟨hre, hel, hg, _⟩ => absurd hg (hnone e hre hel)⟩

theorem pubexpFn_eq_exhausted_iff (h1 : 1 ≤ r) (h2 : r ≤ n / 2) :
    pubexpFn n phi r = .error .searchExhausted ↔ ∀ y, r ≤ y → y ≤ n - 2 → Nat.gcd y phi ≠ 1 := by
  obtain ⟨x, hok, hrx, hxl, hg, -⟩ | ⟨herr, hnone⟩ := pubexpFn_in_range (phi := phi) h1 h2
  · rw [hok]
    exact ⟨nofun, fun hnone => absurd hg (hnone x hrx hxl)⟩
  · exact iff_of_true herr hnone

end

/-- Settles O16: the scan's two answers are the two cases of its range, the least candidate being unique. -/
theorem pubexpScanFindsTheLeastCandidate : Obligations.PubexpScanFindsTheLeastCandidate :=
  fun _ _ _ _ => ⟨pubexpFn_out_of_range, fun h1 h2 _ => pubexpFn_eq_ok_iff h1 h2, pubexpFn_eq_exhausted_iff⟩

/-! ## Committing an outcome, read backwards -/

section
variable {outcome : Except Failure Results} {s : State}

/-- From `FAIL = 0` the state after a failure is no state after a success, so it tells that the outcome failed. -/
theorem finish_eq_completedErr_iff (hs : s.fail = false) (code : ErrCode) :
    finish outcome s = .next (s.completedErr code) ↔ ∃ f, outcome = .error f ∧ f.code = code := by
  constructor
  · intro h
    cases outcome with
    | ok r =>
      rw [finish_ok, Host.Outcome.next.injEq] at h
      have hfail : s.fail = true := congrArg State.fail h
      exact absurd (hs.symm.trans hfail) (by decide)
    | error f =>
      rw [finish_error, Host.Outcome.next.injEq] at h
      exact ⟨f, rfl, congrArg State.errCode h⟩
  · rintro ⟨f, rfl, rfl⟩
    rfl

end

/-! ## `TOTIENT` -/

/-- `TOTIENT` commits its arm of `Exec` on `OPA` and `OPB` (R82). -/
theorem exec_totient (s : State) : exec .totient s = finish (totientOutcome Config.width s.opa s.opb) s :=
  exec_eq_finish (i := .totient) nofun s

theorem not_small_of_large {p q : Nat} (h : 127 < (p - 1) * (q - 1)) :
    ¬ (p = 0 ∨ q = 0 ∨ (p - 1) * (q - 1) ≤ 127) := by
  rintro (rfl | rfl | hle)
  · simp at h
  · simp at h
  · exact absurd h hle.not_gt

/-- Settles O10: the three branches are the three cases of the outcome. -/
theorem totientReturnsTheProduct : Obligations.TotientReturnsTheProduct := by
  refine ⟨rfl, fun s => ?_⟩
  rw [exec_totient]
  obtain ⟨hsmall, h⟩ | ⟨hlarge, hfit, h⟩ | ⟨hlarge, hfit, h⟩ := totientOutcome_cases Config.width s.opa s.opb
  · rw [h, if_pos hsmall]
    rfl
  · rw [h, if_neg (not_small_of_large hlarge), hfit]
    rfl
  · rw [h, if_neg (not_small_of_large hlarge), hfit]
    rfl

/-! ## `PUBEXP` and `KEYGEN` -/

/-- `PUBEXP` commits its arm of `Exec` on `OPA`, `OPB` and `OPR` (R83). -/
theorem exec_pubexp (s : State) : exec .pubexp s = finish (pubexpOutcome Config.width s.opa s.opb s.opr) s :=
  exec_eq_finish (i := .pubexp) nofun s

/-- `KEYGEN` commits its arm of `Exec` on `OPA`, `OPB` and `OPR` (R84). -/
theorem exec_keygen (s : State) : exec .keygen s = finish (keygenOutcome Config.width s.opa s.opb s.opr) s :=
  exec_eq_finish (i := .keygen) nofun s

/-- `e` and `d` are the exponents of the key pair that `p`, `q` and the start `r` give (R84): the operands pass every
test, `e` is the least candidate, and `d` is its inverse modulo the totient. -/
structure KeyPair (w : Width) (p q r e d : Nat) : Prop where
  large : 127 < (p - 1) * (q - 1)
  fits : w.fits (p * q) = true
  start_pos : 1 ≤ r
  start_le : r ≤ p * q / 2
  least : LeastCandidate r (p * q - 2) ((p - 1) * (q - 1)) e
  d_lt : d < (p - 1) * (q - 1)
  inverse : (e * d) % ((p - 1) * (q - 1)) = 1 % ((p - 1) * (q - 1))

section
variable {w : Width} {p q r e d : Nat}

/-- The least candidate always has its inverse: the third step of `KEYGEN` never fails (R84). -/
theorem exists_keyPair (hlarge : 127 < (p - 1) * (q - 1)) (hfit : w.fits (p * q) = true) (h1 : 1 ≤ r)
    (h2 : r ≤ p * q / 2) (hleast : LeastCandidate r (p * q - 2) ((p - 1) * (q - 1)) e) :
    ∃ d, KeyPair w p q r e d := by
  have ⟨_, _, hg, _⟩ := hleast
  obtain ⟨d, -, hlt, hinv⟩ := modinvFn_coprime (Nat.ne_zero_of_lt hlarge) hg
  exact ⟨d, hlarge, hfit, h1, h2, hleast, hlt, hinv⟩

theorem KeyPair.inverse_eq_one (h : KeyPair w p q r e d) : (e * d) % ((p - 1) * (q - 1)) = 1 :=
  h.inverse.trans (Nat.mod_eq_of_lt (Nat.lt_of_le_of_lt (by decide) h.large))

/-- The two commands fail together, with one failure, or give one key pair. -/
theorem keyOutcome_error_or_keyPair (w : Width) (p q r : Nat) :
    (∃ f, pubexpOutcome w p q r = .error f ∧ keygenOutcome w p q r = .error f) ∨
      ∃ e d, KeyPair w p q r e d := by
  obtain ⟨-, h⟩ | ⟨-, -, h⟩ | ⟨-, -, -, h⟩ | ⟨-, -, -, -, -, h⟩ |
    ⟨hl, hf, h1, h2, e, d, hre, hel, hg, hmin, hd, hinv, -⟩ := keyOutcome_cases w p q r
  · exact .inl ⟨_, h⟩
  · exact .inl ⟨_, h⟩
  · exact .inl ⟨_, h⟩
  · exact .inl ⟨_, h⟩
  · exact .inr ⟨e, d, ⟨hl, hf, h1, h2, ⟨hre, hel, hg, hmin⟩, hd, hinv⟩⟩

theorem KeyPair.pubexpOutcome_eq (h : KeyPair w p q r e d) :
    pubexpOutcome w p q r = .ok ⟨e, p * q, 0, (p - 1) * (q - 1)⟩ := by
  have hscan := (pubexpFn_eq_ok_iff h.start_pos h.start_le).mpr h.least
  simp [pubexpOutcome, totientFn_large h.large, checkFits_fits h.fits, hscan, bind, Except.bind, pure, Except.pure]

theorem KeyPair.keygenOutcome_eq (h : KeyPair w p q r e d) :
    keygenOutcome w p q r = .ok ⟨e, p * q, d, (p - 1) * (q - 1)⟩ := by
  have hscan := (pubexpFn_eq_ok_iff h.start_pos h.start_le).mpr h.least
  have hinv := modinvFn_of_inverse h.d_lt h.inverse
  simp [keygenOutcome, totientFn_large h.large, checkFits_fits h.fits, hscan, hinv, bind, Except.bind, pure,
    Except.pure]

/-- The totient is below the modulus, so it fits wherever the modulus does. -/
theorem KeyPair.totientOutcome_eq (h : KeyPair w p q r e d) :
    totientOutcome w p q = .ok ⟨0, 0, 0, (p - 1) * (q - 1)⟩ := by
  have hlt := totient_lt_product h.large
  have hfit : w.fits ((p - 1) * (q - 1)) = true := w.fits_of_le (by omega) h.fits
  simp [totientOutcome, totientFn_large h.large, checkFits_fits hfit, bind, Except.bind, pure, Except.pure]

end

theorem exec_key_of_error {i : Instr} {s : State} {f : Failure} (hi : i = .keygen ∨ i = .pubexp)
    (h : pubexpOutcome Config.width s.opa s.opb s.opr = .error f ∧
      keygenOutcome Config.width s.opa s.opb s.opr = .error f) : exec i s = .next (s.completedErr f.code) := by
  obtain ⟨hpub, hkey⟩ := h
  obtain rfl | rfl := hi
  · rw [exec_keygen, hkey]
    rfl
  · rw [exec_pubexp, hpub]
    rfl

/-- A success of either command has given a key pair; `KEYGEN` writes its `d` too. -/
theorem keyPair_of_success {i : Instr} {s t : State} (hi : i = .keygen ∨ i = .pubexp) (h : exec i s = .next t)
    (ht : t.fail = false) :
    ∃ e d, KeyPair Config.width s.opa s.opb s.opr e d ∧
      t = s.completedOk e (s.opa * s.opb) (if i = .keygen then d else 0) ((s.opa - 1) * (s.opb - 1)) := by
  obtain ⟨f, herr⟩ | ⟨e, d, hpair⟩ := keyOutcome_error_or_keyPair Config.width s.opa s.opb s.opr
  · rw [exec_key_of_error hi herr] at h
    cases h
    cases ht
  · refine ⟨e, d, hpair, ?_⟩
    obtain rfl | rfl := hi
    · rw [exec_keygen, hpair.keygenOutcome_eq] at h
      cases h
      rfl
    · rw [exec_pubexp, hpair.pubexpOutcome_eq] at h
      cases h
      rfl

/-- `PUBEXP` and `KEYGEN` make the same tests in the same order (R103). `found` stands for what the command leaves when
the scan finds a candidate, the one place where the two differ. -/
theorem exec_key_tests {i : Instr} (hi : i = .keygen ∨ i = .pubexp) (s : State) {found : Prop}
    (hfound : 127 < (s.opa - 1) * (s.opb - 1) → Config.width.fits (s.opa * s.opb) = true → 1 ≤ s.opr →
      s.opr ≤ s.opa * s.opb / 2 → found) :
    if s.opa = 0 ∨ s.opb = 0 ∨ (s.opa - 1) * (s.opb - 1) ≤ 127 then exec i s = .next (s.completedErr 1)
    else if Config.width.fits (s.opa * s.opb) = false then exec i s = .next (s.completedErr 7)
    else if s.opr < 1 ∨ s.opa * s.opb / 2 < s.opr then exec i s = .next (s.completedErr 6)
    else found ∧ ((∀ y, s.opr ≤ y → y ≤ s.opa * s.opb - 2 → Nat.gcd y ((s.opa - 1) * (s.opb - 1)) ≠ 1) →
      exec i s = .next (s.completedErr 2)) := by
  obtain ⟨hs, h⟩ | ⟨hl, hf, h⟩ | ⟨hl, hf, hr, h⟩ | ⟨hl, hf, h1, h2, -, h⟩ |
    ⟨hl, hf, h1, h2, e, -, hre, hel, hg, -⟩ := keyOutcome_cases Config.width s.opa s.opb s.opr
  · rw [if_pos hs]
    exact exec_key_of_error hi h
  · rw [if_neg (not_small_of_large hl), if_pos hf]
    exact exec_key_of_error hi h
  · rw [if_neg (not_small_of_large hl), if_neg (by simp [hf]), if_pos hr]
    exact exec_key_of_error hi h
  · rw [if_neg (not_small_of_large hl), if_neg (by simp [hf]), if_neg (by omega)]
    exact ⟨hfound hl hf h1 h2, fun _ => exec_key_of_error hi h⟩
  · rw [if_neg (not_small_of_large hl), if_neg (by simp [hf]), if_neg (by omega)]
    exact ⟨hfound hl hf h1 h2, fun hnone => absurd hg (hnone e hre hel)⟩

/-- Settles O11: past the tests, the least candidate and its modulus and totient are what `PUBEXP` commits. -/
theorem pubexpReturnsTheLeastCoprimeExponent : Obligations.PubexpReturnsTheLeastCoprimeExponent := by
  refine ⟨rfl, fun s => exec_key_tests (.inr rfl) s fun hl hf h1 h2 e hre hel hg hmin => ?_⟩
  obtain ⟨d, hpair⟩ := exists_keyPair hl hf h1 h2 ⟨hre, hel, hg, hmin⟩
  rw [exec_pubexp, hpair.pubexpOutcome_eq]
  rfl

/-- Settles O12: past the tests, the least candidate has an inverse, and `KEYGEN` commits the pair. -/
theorem keygenReturnsTheKeyPair : Obligations.KeygenReturnsTheKeyPair := by
  refine ⟨rfl, fun s => exec_key_tests (.inl rfl) s fun hl hf h1 h2 e hre hel hg hmin => ?_⟩
  obtain ⟨d, hpair⟩ := exists_keyPair hl hf h1 h2 ⟨hre, hel, hg, hmin⟩
  refine ⟨d, hpair.d_lt, hpair.inverse_eq_one, ?_⟩
  rw [exec_keygen, hpair.keygenOutcome_eq]
  rfl

/-! ## `KEYGEN` as a sequence -/

theorem keygenOutcome_eq_error_iff (w : Width) (p q r : Nat) (f : Failure) :
    keygenOutcome w p q r = .error f ↔ pubexpOutcome w p q r = .error f := by
  obtain ⟨g, hpub, hkey⟩ | ⟨e, d, hpair⟩ := keyOutcome_error_or_keyPair w p q r
  · rw [hpub, hkey]
  · rw [hpair.pubexpOutcome_eq, hpair.keygenOutcome_eq]
    exact ⟨nofun, nofun⟩

/-- `KEYGEN` fails as `TOTIENT` does (R84): a totient that does not fit is below a modulus that does not fit either. -/
theorem keygenOutcome_of_totient_error {w : Width} {p q : Nat} {f : Failure} (r : Nat)
    (h : totientOutcome w p q = .error f) : keygenOutcome w p q r = .error f := by
  obtain ⟨hsmall, h'⟩ | ⟨hlarge, hfit, h'⟩ | ⟨-, -, h'⟩ := totientOutcome_cases w p q
  · cases h'.symm.trans h
    rw [keygenOutcome, totientFn_small hsmall]
    rfl
  · cases h'.symm.trans h
    have hlt := totient_lt_product hlarge
    have hover : w.fits (p * q) = false := by
      refine Bool.eq_false_iff.mpr fun hn => ?_
      rw [w.fits_of_le (by omega) hn] at hfit
      cases hfit
    simp [keygenOutcome, totientFn_large hlarge, checkFits_overflow hover, bind, Except.bind]
  · cases h'.symm.trans h

/-- Settles O24: a success is a key pair, whose parts are the outcomes of the three commands; a failure is one of
`PUBEXP`'s, and `TOTIENT`'s where that fails. -/
theorem keygenIsTheSequenceOfItsSteps : Obligations.KeygenIsTheSequenceOfItsSteps := by
  refine ⟨fun s t hexec ht => ?_, fun s hs code => ⟨?_, fun htot => ?_⟩⟩
  · obtain ⟨e, d, hpair, rfl⟩ := keyPair_of_success (.inl rfl) hexec ht
    refine ⟨?_, fun u hu hm => ?_, fun u hp hq => ?_⟩
    · rw [exec_pubexp, hpair.pubexpOutcome_eq]
      rfl
    · refine exec_modinv_of_ok ?_
      rw [hu, hm]
      exact modinvFn_of_inverse hpair.d_lt hpair.inverse
    · rw [exec_totient, hp, hq, hpair.totientOutcome_eq]
      rfl
  · rw [exec_keygen, exec_pubexp, finish_eq_completedErr_iff hs, finish_eq_completedErr_iff hs]
    simp only [keygenOutcome_eq_error_iff]
  · rw [exec_totient, finish_eq_completedErr_iff hs] at htot
    obtain ⟨f, herr, hcode⟩ := htot
    rw [exec_keygen, finish_eq_completedErr_iff hs]
    exact ⟨f, keygenOutcome_of_totient_error s.opr herr, hcode⟩

/-! ## What a key pair guarantees -/

/-- Settles O52: each item is a field of the key pair, and the round trip is R78's under `d` inverse to `e`. -/
theorem keygenGuarantees : Obligations.KeygenGuarantees := by
  intro i s t hi hexec ht
  obtain ⟨e, d, hpair, rfl⟩ := keyPair_of_success hi hexec ht
  have ⟨hre, hel, hg, hmin⟩ := hpair.least
  refine ⟨rfl, rfl, hpair.large, hre, hel, hpair.start_pos, hpair.start_le, hg, hmin,
    hpair.least.eq_one_iff hpair.start_pos, ?_, ?_⟩
  · rintro rfl
    exact ⟨hpair.d_lt, hpair.inverse_eq_one⟩
  · rintro rfl hp hq hne x enc mid dec hx hencA hencB hencM henc hdecA hdecB hdecM
    rw [← Nat.mod_eq_of_lt hx]
    exact exec_modpow_roundTrip hp hq hne hpair.inverse hencA hencB hencM henc hdecA hdecB hdecM

end Sys2Proof.Machine
end

section
/-! PROOFS. The cracker (43_cracker.md): what `FACTOR` and `CRACK` leave, what a successful `CRACK` guarantees, and that
it recovers the key of `KEYGEN`. -/

namespace Sys2Proof.Machine

/-! ## `FACTOR` -/

/-- `FACTOR` commits its arm of `Exec` on `OPM` (R91). -/
theorem exec_factor (s : State) : exec .factor s = finish (factorOutcome s.opm) s :=
  exec_eq_finish (i := .factor) nofun s

theorem not_dvd_of_lt_minFac {n y : Nat} (h2 : 2 ≤ y) (hlt : y < n.minFac) : ¬ y ∣ n :=
  fun hdvd => absurd (Nat.minFac_le_of_dvd h2 hdvd) hlt.not_ge

/-- Settles O13: the divisor found is `minFac`, and the cofactor of a composite is at least as large. -/
theorem factorReturnsTheSmallestDivisor : Obligations.FactorReturnsTheSmallestDivisor := by
  refine ⟨rfl, fun s => ⟨fun h => ?_, fun h4 hp => ?_⟩⟩
  · rw [exec_factor, factorOutcome, factorFn_unfactorable h]
    rfl
  · obtain ⟨h2, hle, hmul, -⟩ := minFac_pair h4 hp
    refine ⟨s.opm.minFac, h2, Nat.minFac_dvd _, fun _ => not_dvd_of_lt_minFac, hle, hmul, ?_⟩
    rw [exec_factor, factorOutcome, factorFn_composite h4 hp]
    rfl

/-! ## `CRACK` -/

/-- `CRACK` commits its arm of `Exec` on `OPA` and `OPM` (R92). -/
theorem exec_crack (s : State) : exec .crack s = finish (crackOutcome s.opa s.opm) s :=
  exec_eq_finish (i := .crack) nofun s

/-- The bare product of R92 for the factors that R90 finds. -/
def crackTotient (n : Nat) : Nat := (n.minFac - 1) * (n / n.minFac - 1)

/-- `d` is what `CRACK` recovers from the public key `(e, n)` (R92): `n` factors, and `d` is the inverse of `e` modulo the
bare product. -/
structure CrackedKey (e n d : Nat) : Prop where
  four_le : 4 ≤ n
  not_prime : ¬ n.Prime
  d_lt : d < crackTotient n
  inverse : (e * d) % crackTotient n = 1 % crackTotient n

section
variable {e n d : Nat}

/-- Past the factoring, `CRACK` answers as `MODINV` does modulo the bare product. -/
theorem crackOutcome_composite (e : Nat) (h4 : 4 ≤ n) (hp : ¬ n.Prime) :
    crackOutcome e n =
      (modinvFn e (crackTotient n)).map fun d => ⟨n.minFac, n / n.minFac, d, crackTotient n⟩ := by
  rw [crackOutcome, factorFn_composite h4 hp]
  rfl

theorem crackTotient_ne_zero (h4 : 4 ≤ n) (hp : ¬ n.Prime) : crackTotient n ≠ 0 := by
  obtain ⟨-, -, -, hpos, -⟩ := minFac_pair h4 hp
  exact hpos.ne'

theorem exists_crackedKey (h4 : 4 ≤ n) (hp : ¬ n.Prime) (hg : Nat.gcd e (crackTotient n) = 1) :
    ∃ d, CrackedKey e n d := by
  obtain ⟨d, -, hlt, hinv⟩ := modinvFn_coprime (crackTotient_ne_zero h4 hp) hg
  exact ⟨d, h4, hp, hlt, hinv⟩

end

section
variable {s t : State} {d : Nat}

theorem exec_crack_of_unfactorable (h : s.opm < 4 ∨ s.opm.Prime) : exec .crack s = .next (s.completedErr 3) := by
  rw [exec_crack, crackOutcome, factorFn_unfactorable h]
  rfl

theorem exec_crack_of_not_coprime (h4 : 4 ≤ s.opm) (hp : ¬ s.opm.Prime)
    (hg : Nat.gcd s.opa (crackTotient s.opm) ≠ 1) : exec .crack s = .next (s.completedErr 5) := by
  rw [exec_crack, crackOutcome_composite s.opa h4 hp, modinvFn_not_coprime (crackTotient_ne_zero h4 hp) hg]
  rfl

theorem CrackedKey.exec_crack_eq (h : CrackedKey s.opa s.opm d) :
    exec .crack s = .next (s.completedOk s.opm.minFac (s.opm / s.opm.minFac) d (crackTotient s.opm)) := by
  rw [exec_crack, crackOutcome_composite s.opa h.four_le h.not_prime, modinvFn_of_inverse h.d_lt h.inverse]
  rfl

/-- `CRACK` either fails with `FAIL = 1` or has recovered a key. -/
theorem crackedKey_of_success (h : exec .crack s = .next t) (ht : t.fail = false) :
    ∃ d, CrackedKey s.opa s.opm d ∧
      t = s.completedOk s.opm.minFac (s.opm / s.opm.minFac) d (crackTotient s.opm) := by
  rw [exec_crack] at h
  obtain ⟨-, herr⟩ | ⟨-, -, -, herr⟩ | ⟨h4, hp, -, d, hok, hlt, hinv⟩ := crackOutcome_cases s.opa s.opm
  · rw [herr] at h
    cases h
    cases ht
  · rw [herr] at h
    cases h
    cases ht
  · rw [hok] at h
    cases h
    exact ⟨d, ⟨h4, hp, hlt, hinv⟩, rfl⟩

end

/-- Settles O14: the three clauses are the two failures in their order and the recovered key. -/
theorem crackRecoversThePrivateExponent : Obligations.CrackRecoversThePrivateExponent := by
  refine ⟨rfl, fun s => ⟨exec_crack_of_unfactorable, exec_crack_of_not_coprime, fun h4 hp hg => ?_⟩⟩
  obtain ⟨d, hkey⟩ := exists_crackedKey h4 hp hg
  exact ⟨d, hkey.d_lt, hkey.inverse, hkey.exec_crack_eq⟩

/-! ## Recovering the key of `KEYGEN` -/

section
variable {p q : Nat} (hp : p.Prime) (hq : q.Prime) (hlt : p < q)
include hp hq hlt

theorem minFac_mul_of_prime_lt : (p * q).minFac = p := by
  have hne : p * q ≠ 1 := fun h => hp.ne_one (Nat.eq_one_of_mul_eq_one_right h)
  have hmin : (p * q).minFac.Prime := Nat.minFac_prime hne
  obtain h | h := hmin.dvd_mul.mp (Nat.minFac_dvd (p * q))
  · exact (Nat.prime_dvd_prime_iff_eq hmin hp).mp h
  · have hle : (p * q).minFac ≤ p := Nat.minFac_le_of_dvd hp.two_le (Nat.dvd_mul_right p q)
    exact absurd ((Nat.prime_dvd_prime_iff_eq hmin hq).mp h) (hle.trans_lt hlt).ne

/-- `CRACK` on the product of two distinct primes finds the primes, the smaller first, and any inverse of `e` modulo their
totient, there being only one (R94). -/
theorem exec_crack_of_primes {s : State} {d : Nat} (hn : s.opm = p * q) (hd : d < (p - 1) * (q - 1))
    (hinv : (s.opa * d) % ((p - 1) * (q - 1)) = 1 % ((p - 1) * (q - 1))) :
    exec .crack s = .next (s.completedOk p q d ((p - 1) * (q - 1))) := by
  have hmin : s.opm.minFac = p := hn ▸ minFac_mul_of_prime_lt hp hq hlt
  have hdiv : s.opm / p = q := hn ▸ Nat.mul_div_cancel_left q hp.pos
  have hphi : crackTotient s.opm = (p - 1) * (q - 1) := by rw [crackTotient, hmin, hdiv]
  have h4 : 4 ≤ s.opm := hn ▸ Nat.mul_le_mul hp.two_le hq.two_le
  have hnp : ¬ s.opm.Prime := hn ▸ Nat.not_prime_mul hp.ne_one hq.ne_one
  have hkey : CrackedKey s.opa s.opm d := ⟨h4, hnp, hphi ▸ hd, hphi ▸ hinv⟩
  rw [hkey.exec_crack_eq, hphi, hmin, hdiv]

end

/-- Settles O54: the guarantees are the fields of the recovered key and of the factoring; the key of `KEYGEN` is recovered
because neither the product nor the totient depends on the order of the primes. -/
theorem crackGuaranteesAndRecoversTheKey : Obligations.CrackGuaranteesAndRecoversTheKey := by
  refine ⟨fun s t hexec ht => ?_, fun p0 q0 s t u hp hq hlt horder hexec ht hue hun => ?_⟩
  · obtain ⟨d, hkey, rfl⟩ := crackedKey_of_success hexec ht
    obtain ⟨h2, hle, hmul, -⟩ := minFac_pair hkey.four_le hkey.not_prime
    exact ⟨hmul, h2, hle, fun _ => not_dvd_of_lt_minFac, rfl, hkey.d_lt, hkey.inverse⟩
  · obtain ⟨e, d, hpair, rfl⟩ := keyPair_of_success (.inl rfl) hexec ht
    obtain ⟨hprod, hphi⟩ : s.opa * s.opb = p0 * q0 ∧ (s.opa - 1) * (s.opb - 1) = (p0 - 1) * (q0 - 1) := by
      obtain ⟨ha, hb⟩ | ⟨ha, hb⟩ := horder <;> rw [ha, hb]
      · exact ⟨rfl, rfl⟩
      · exact ⟨Nat.mul_comm _ _, Nat.mul_comm _ _⟩
    have hd : d < (p0 - 1) * (q0 - 1) := hphi ▸ hpair.d_lt
    have hinv : (u.opa * d) % ((p0 - 1) * (q0 - 1)) = 1 % ((p0 - 1) * (q0 - 1)) := by
      rw [hue, ← hphi]
      exact hpair.inverse
    rw [exec_crack_of_primes hp hq hlt (hun.trans hprod) hd hinv, ← hphi]
    rfl

end Sys2Proof.Machine
end

section
/-! PROOFS. The system commands (44_system_commands.md): `CLEAR`, a `CTRL` write with and without the abort bit, the
abort's race with the completion, and the end of an illegal word. -/

namespace Sys2Proof.Machine

section
variable {s : State} {v : Nat} {rest : List Event}

/-- A step has one next state, and `irq` after it is that state's. -/
theorem irq_after_step {t u : State} {b : Bool} (hstep : step s = .next u) (hirq : u.irq = b) (ht : step s = .next t) :
    t.irq = b :=
  Host.Outcome.next.inj (hstep.symm.trans ht) ▸ hirq

theorem commandWordOf_toNat (v : Nat) : (commandWordOf v).toNat = v % 256 := BitVec.toNat_ofNat v 8

/-! ## `CLEAR` -/

theorem commandWordOf_eq_clear_iff (v : Nat) : commandWordOf v = 0x0F ↔ v % 256 = 0x0F := by
  rw [← BitVec.toNat_inj, commandWordOf_toNat]
  rfl

/-- A `CMD` write of `CLEAR`'s word on an idle block clears it in that step (R96). -/
theorem step_clear_idle (hidle : s.busy = false) (hv : v % 256 = 0x0F)
    (h : s.schedule = .transact (.write (regAddr .cmd) v) :: rest) :
    step s = .next (clearResults (s.withSchedule rest)) := by
  have hdec : decodeWord (commandWordOf v) = .ok .clear :=
    (decodeWord_clear_iff _).mpr ((commandWordOf_eq_clear_iff v).mpr hv)
  exact (stepRunsClearWhenItsWordIsWritten s v rest hdec h).trans (execClear_idle hidle)

theorem irq_clearResults (s : State) : (clearResults s).irq = false := by
  rw [State.irq, clearResults_done, Bool.false_and]

/-! ## A `CTRL` write -/

theorem step_ctrl_write (h : s.schedule = .transact (.write (regAddr .ctrl) v) :: rest) :
    step s = .next (writeCtrl v (s.withSchedule rest)) :=
  step_of_become (nextAction_write h)

/-- A `CTRL` write never errs (R36). -/
theorem stepResponse_ctrl_write (h : s.schedule = .transact (.write (regAddr .ctrl) v) :: rest) :
    stepResponse s = some { rdata := 0, error := false } := by
  rw [stepResponse_transact h, portResponse, regAt_regAddr, writeError]

/-- With the abort bit and `BUSY = 1` the write ends the running command (R97). -/
theorem step_ctrl_abort (hv : abortBitOf v = true) (hbusy : s.busy = true)
    (h : s.schedule = .transact (.write (regAddr .ctrl) v) :: rest) :
    step s = .next (raise .aborted { s.withSchedule rest with ie := ieBitOf v }) := by
  rw [step_ctrl_write h, writeCtrl, withSchedule_busy, hv, hbusy]
  rfl

/-- Without the abort bit, or with `BUSY = 0`, the write only sets `IE` (R97, R99). -/
theorem step_ctrl_setsIe (hv : abortBitOf v = false ∨ s.busy = false)
    (h : s.schedule = .transact (.write (regAddr .ctrl) v) :: rest) :
    step s = .next { s.withSchedule rest with ie := ieBitOf v } := by
  have hno : (abortBitOf v && s.busy) = false := Bool.and_eq_false_iff.mpr hv
  rw [step_ctrl_write h, writeCtrl, withSchedule_busy, hno]
  rfl

theorem irq_raise (f : Failure) (s : State) : (raise f s).irq = s.ie := by
  rw [State.irq, raise_done, raise_ie, Bool.true_and]

/-- A completion mark that finds the block idle does nothing (log entry 4). -/
theorem step_complete_idle (hidle : s.busy = false) (h : s.schedule = .complete :: rest) :
    step s = .next (s.withSchedule rest) :=
  step_of_become (by rw [nextAction_complete h, hidle]; rfl)

/-! ## The abort's race with the completion -/

/-- Abort first: the command is already over at the mark (R97). -/
theorem run_abort_then_mark (hv : abortBitOf v = true) (hbusy : s.busy = true)
    (h : s.schedule = .transact (.write (regAddr .ctrl) v) :: .complete :: rest) :
    Host.Core.run Sys2Proof.core 2 s = .next (raise .aborted { s.withSchedule rest with ie := ieBitOf v }) := by
  have habort := step_ctrl_abort hv hbusy h
  have hmark := step_complete_idle
    (s := raise .aborted { s.withSchedule (.complete :: rest) with ie := ieBitOf v }) rfl rfl
  exact (core_run_succ 1 habort).trans (core_run_succ 0 hmark)

/-- Completion first: the outcome stands, and the write finds the block idle (R97). -/
theorem run_completion_then_ctrl_write (hbusy : s.busy = true) (hcmd : s.curCmd ≠ 0x0F)
    (h : s.schedule = .complete :: .transact (.write (regAddr .ctrl) v) :: rest) :
    Host.Core.run Sys2Proof.core 2 s =
      .next { (s.afterCompletion Config.width).withSchedule rest with ie := ieBitOf v } := by
  have hmark := step_complete_busy hbusy hcmd h
  rw [afterCompletion_withSchedule] at hmark
  have hwrite := step_ctrl_setsIe
    (s := (s.afterCompletion Config.width).withSchedule (.transact (.write (regAddr .ctrl) v) :: rest))
    (.inr (afterCompletion_busy s Config.width)) rfl
  exact (core_run_succ 1 hmark).trans (core_run_succ 0 hwrite)

end

/-! ## The statements -/

/-- Settles O28: the word is accepted, being illegal and so not `CLEAR`'s, and the outcome its completion commits is
`IllegalCommand`. -/
theorem illegalWordFailsWithIllegalCommand : Obligations.IllegalWordFailsWithIllegalCommand := by
  intro s v rest hidle hv h
  rw [← commandWordOf_toNat] at hv
  have hdec := (decodeWord_eq_illegal_iff_toNat (commandWordOf v)).mpr hv
  have hcmd : commandWordOf v ≠ 0x0F := fun hclear => by
    rw [(decodeWord_clear_iff _).mpr hclear] at hdec
    cases hdec
  have hend := afterCompletion_of_error (w := Config.width) (s := accept (commandWordOf v) (s.withSchedule rest))
    (execOutcome_illegal hdec)
  exact (acceptedCommandCompletesOnItsOperands s v rest hidle hcmd h).trans (congrArg _ hend)

/-- Settles O29: busy, idle, and the two orders of the race. -/
theorem abortEndsTheRunningCommand : Obligations.AbortEndsTheRunningCommand := by
  intro s v rest hv
  refine ⟨fun hbusy h => ?_, fun hidle h => ?_, run_abort_then_mark hv, run_completion_then_ctrl_write⟩
  · have hstep := step_ctrl_abort hv hbusy h
    exact ⟨hstep, stepResponse_ctrl_write h, fun _ => irq_after_step hstep (irq_raise _ _)⟩
  · exact ⟨step_ctrl_setsIe (.inr hidle) h, stepResponse_ctrl_write h⟩

/-- Settles O15: the write runs `CLEAR`, which looks at `BUSY`; while busy it is refused like any `CMD` write. -/
theorem clearZeroesResultsAtOnce : Obligations.ClearZeroesResultsAtOnce := by
  refine ⟨rfl, fun s => ⟨execClear_idle, execClear_busy, fun v rest hv h => ⟨fun hidle => ?_, fun hbusy => ?_⟩⟩⟩
  · have hstep := step_clear_idle hidle hv h
    refine ⟨hstep, ?_, fun _ => irq_after_step hstep (irq_clearResults _)⟩
    rw [stepResponse_cmd_write h, hidle]
  · exact writesWhileBusyAreRefused s 0x0 v rest hbusy List.mem_cons_self h

/-- Settles O30: without the abort bit the write is the one that only sets `IE`, and `DONE` is as before. -/
theorem ctrlWriteSetsTheInterruptEnable : Obligations.CtrlWriteSetsTheInterruptEnable := by
  intro s v rest hv h
  have hstep := step_ctrl_setsIe (.inl hv) h
  exact ⟨hstep, stepResponse_ctrl_write h, fun _ => irq_after_step hstep rfl⟩

end Sys2Proof.Machine
end

section
/-! PROOFS. Failures, access errors and the interrupt (60_exceptions.md): which failure a command can report and what it
shows, when a transaction errs, and when `irq` rises and falls. -/

namespace Sys2Proof

/-- Operands that fit and have a small totient have a product that fits: one of them is at most 1, and the product no
larger than the other, or both are at most 128 (R103). -/
theorem Width.fits_mul_of_small_totient (w : Width) {p q : Nat} (hp : w.fits p = true) (hq : w.fits q = true)
    (hsmall : (p - 1) * (q - 1) ≤ 127) : w.fits (p * q) = true := by
  by_cases hp1 : p ≤ 1
  · exact w.fits_of_le ((Nat.mul_le_mul_right q hp1).trans_eq (one_mul q)) hq
  by_cases hq1 : q ≤ 1
  · exact w.fits_of_le ((Nat.mul_le_mul_left p hq1).trans_eq (mul_one p)) hp
  have hp128 : p - 1 ≤ 127 := (Nat.le_mul_of_pos_right _ (by omega)).trans hsmall
  have hq128 : q - 1 ≤ 127 := (Nat.le_mul_of_pos_left _ (by omega)).trans hsmall
  have hpq : p * q ≤ 128 * 128 := Nat.mul_le_mul (by omega) (by omega)
  exact w.fits_of_lt (by omega)

end Sys2Proof

namespace Sys2Proof.Machine

/-! ## Failures -/

/-- Settles O17: a small totient would make the product fit, and the totient and the product are what is tested before
`r` (R103). -/
theorem overflowExcludesInvalidKeyMaterial : Obligations.OverflowExcludesInvalidKeyMaterial := by
  intro w p q r hp hq hover
  have hlarge : 127 < (p - 1) * (q - 1) := by
    by_contra hsmall
    exact absurd (hover.symm.trans (w.fits_mul_of_small_totient hp hq (not_lt.mp hsmall))) (by decide)
  refine ⟨hlarge, ?_, ?_⟩
  · rw [pubexpOutcome, totientFn_large hlarge, checkFits_overflow hover]
    rfl
  · rw [keygenOutcome, totientFn_large hlarge, checkFits_overflow hover]
    rfl

section
variable {i : Instr} {s t : State}

/-- `CLEAR` never raises `FAIL` (R96, R102). -/
theorem fail_exec_clear (hs : s.fail = false) (h : exec .clear s = .next t) : t.fail = false := by
  change execClear s = .next t at h
  cases hbusy : s.busy with
  | true =>
    rw [execClear_busy hbusy] at h
    cases h
    exact hs
  | false =>
    rw [execClear_idle hbusy] at h
    cases h
    rfl

/-- A command that sets `FAIL` has committed a failure of its arm of `Exec` (R104). -/
theorem raise_of_exec_fails (hs : s.fail = false) (h : exec i s = .next t) (ht : t.fail = true) :
    ∃ f, execOutcome Config.width (encodeWord i) s.opa s.opb s.opm s.opr = .error f ∧ t = raise f s := by
  by_cases hi : i = .clear
  · subst hi
    exact absurd ((fail_exec_clear hs h).symm.trans ht) (by decide)
  rw [exec_eq_finish hi] at h
  cases hout : execOutcome Config.width (encodeWord i) s.opa s.opb s.opm s.opr with
  | ok r =>
    rw [hout, finish_ok] at h
    cases h
    exact absurd (hs.symm.trans ht) (by decide)
  | error f =>
    rw [hout, finish_error] at h
    cases h
    exact ⟨f, rfl, rfl⟩

end

/-- Settles O21: the code is that of a failure of the command's own outcome. -/
theorem commandsReportOnlyTheirCodes : Obligations.CommandsReportOnlyTheirCodes := by
  intro i s t hs h ht
  obtain ⟨f, herr, rfl⟩ := raise_of_exec_fails hs h ht
  exact execOutcome_error_mem herr

/-- Settles O22: a failure does not write the result registers. -/
theorem failureShowsNoPartialResult : Obligations.FailureShowsNoPartialResult := by
  intro i s t hzero hs h ht
  obtain ⟨f, -, rfl⟩ := raise_of_exec_fails hs h ht
  exact hzero

/-! ## Access errors -/

/-- A read errs just at the reserved addresses (R37). -/
theorem read_error_iff (w : Width) (addr : RegAddr) (s : State) :
    (portResponse w (.read addr) s).error = true ↔ 0xC ≤ addr.toNat :=
  Option.isNone_iff_eq_none.trans (regAt_eq_none_iff addr)

/-- A write errs at a reserved address and at the read-only registers always, at `CMD` and the operand registers while
`BUSY = 1`, and at `CTRL` never (R32). -/
theorem write_error_iff (w : Width) (addr : RegAddr) (v : Nat) (s : State) :
    (portResponse w (.write addr v) s).error = true ↔
      0xC ≤ addr.toNat ∨ addr ∈ [(0x1 : RegAddr), 0x3, 0x8, 0x9, 0xA, 0xB] ∨
        (s.busy = true ∧ addr ∈ [(0x0 : RegAddr), 0x4, 0x5, 0x6, 0x7]) := by
  rw [portResponse]
  cases hreg : regAt addr with
  | none => exact iff_of_true rfl (.inl ((regAt_eq_none_iff addr).mp hreg))
  | some r =>
    rw [(regAt_eq_some_iff addr r).mp hreg]
    cases r <;> simp [writeError, regAddr]

/-- Settles O37: the two lists of cases are those of a read and of a write, and an access in error is refused whole. -/
theorem accessErrorsAreExactlyTheseAndChangeNothing :
    Obligations.AccessErrorsAreExactlyTheseAndChangeNothing := by
  intro s req rest h
  refine ⟨_, stepResponse_transact h, ?_, fun herr => ?_⟩
  · cases req with
    | read addr => simp [read_error_iff]
    | write addr v => simp [write_error_iff]
  · obtain ⟨hstep, hresp⟩ := erring_access h herr
    rw [stepResponse_transact h] at hresp
    exact ⟨hstep, congrArg Response.rdata (Option.some.inj hresp)⟩

/-! ## The interrupt -/

section
variable {s t : State} {v : Nat} {rest : List Event}

/-- `irq` rises only at the end of a running command or where the host sets `IE` with `DONE = 1` (R107). -/
theorem irq_rises_at (hstep : step s = .next t) (hs : s.irq = false) (ht : t.irq = true) :
    (s.busy = true ∧ t.busy = false) ∨
      ∃ v rest, s.schedule = .transact (.write (regAddr .ctrl) v) :: rest ∧ ieBitOf v = true ∧ s.done = true := by
  cases step_kind hstep with
  | completes hbusy _ _ _ hnext => exact .inl ⟨hbusy, by rw [hnext, afterCompletion_busy]⟩
  | aborts _ _ _ hbusy _ hnext => exact .inl ⟨hbusy, by rw [hnext, raise_busy]⟩
  | setsIe v rest hsched _ hnext =>
    subst hnext
    obtain ⟨hdone, hie⟩ := Bool.and_eq_true_iff.mp ht
    exact .inr ⟨v, rest, hsched, hie, hdone⟩
  | resets _ _ _ hnext | accepts _ _ _ _ _ hnext | clears _ _ _ _ _ hnext =>
    have hlow : t.irq = false := by simp [hnext, State.irq]
    exact absurd (hlow.symm.trans ht) (by decide)
  | waits _ _ hnext | stays _ _ _ _ hnext | keeps _ _ _ hnext _ | stores _ _ _ _ _ _ hnext =>
    have hsame : t.irq = s.irq := by simp [hnext, State.irq]
    exact absurd (hs.symm.trans (hsame.symm.trans ht)) (by decide)

/-- `irq` falls only where an accepted `CMD` write or reset clears `DONE`, or the host clears `IE` (R107). -/
theorem irq_falls_at (hstep : step s = .next t) (hs : s.irq = true) (ht : t.irq = false) :
    (∃ v rest, s.schedule = .transact (.write (regAddr .cmd) v) :: rest ∧ s.busy = false) ∨
      (∃ p rest, s.schedule = .reset p :: rest) ∨
      ∃ v rest, s.schedule = .transact (.write (regAddr .ctrl) v) :: rest ∧ ieBitOf v = false := by
  cases step_kind hstep with
  | accepts v rest hsched hidle _ _ | clears v rest hsched hidle _ _ => exact .inl ⟨v, rest, hsched, hidle⟩
  | resets p rest hsched _ => exact .inr (.inl ⟨p, rest, hsched⟩)
  | aborts v rest hsched _ _ hnext =>
    rw [hnext, irq_raise] at ht
    exact .inr (.inr ⟨v, rest, hsched, ht⟩)
  | setsIe v rest hsched _ hnext =>
    obtain ⟨hdone, -⟩ := Bool.and_eq_true_iff.mp hs
    have hie : t.irq = ieBitOf v := by simp [hnext, State.irq, hdone]
    exact .inr (.inr ⟨v, rest, hsched, hie.symm.trans ht⟩)
  | completes _ _ _ _ hnext =>
    obtain ⟨-, hie⟩ := Bool.and_eq_true_iff.mp hs
    have hhigh : t.irq = true := by rw [hnext, irq_afterCompletion, withSchedule_ie, hie]
    exact absurd (ht.symm.trans hhigh) (by decide)
  | waits _ _ hnext | stays _ _ _ _ hnext | keeps _ _ _ hnext _ | stores _ _ _ _ _ _ hnext =>
    have hsame : t.irq = s.irq := by simp [hnext, State.irq]
    exact absurd (ht.symm.trans (hsame.trans hs)) (by decide)

/-- Whenever `BUSY` falls other than by reset, `DONE` is 1 and `irq` is `IE` (R107). -/
theorem irq_eq_ie_of_busy_falls (hstep : step s = .next t) (hs : s.busy = true) (ht : t.busy = false) :
    t.irq = t.ie ∨ ∃ p rest, s.schedule = .reset p :: rest := by
  cases step_kind hstep with
  | completes _ _ _ _ hnext => exact .inl (by rw [hnext, irq_afterCompletion, afterCompletion_ie])
  | aborts _ _ _ _ _ hnext => exact .inl (by rw [hnext, irq_raise, raise_ie])
  | resets p rest hsched _ => exact .inr ⟨p, rest, hsched⟩
  | _ => simp_all -- `BUSY` keeps its value or was 0, against `hs` and `ht`

theorem writeCtrl_ie (v : Nat) (s : State) : (writeCtrl v s).ie = ieBitOf v := by
  unfold writeCtrl
  split <;> rfl

/-- A `CTRL` write never clears `DONE`; an abort sets it (R97, R99). -/
theorem writeCtrl_done (v : Nat) (hdone : s.done = true) : (writeCtrl v s).done = true := by
  unfold writeCtrl
  split
  · rfl
  · exact hdone

theorem irq_of_ctrl_write (hstep : step s = .next t)
    (h : s.schedule = .transact (.write (regAddr .ctrl) v) :: rest) :
    t.irq = (t.done && ieBitOf v) ∧ (s.done = true → t.done = true) := by
  rw [step_ctrl_write h] at hstep
  cases hstep
  exact ⟨by rw [State.irq, writeCtrl_ie], writeCtrl_done (s := s.withSchedule rest) v⟩

theorem irq_of_accepted_cmd_write (hstep : step s = .next t)
    (h : s.schedule = .transact (.write (regAddr .cmd) v) :: rest) (hidle : s.busy = false) : t.irq = false := by
  by_cases hcmd : commandWordOf v = 0x0F
  · exact irq_after_step (step_clear_idle hidle ((commandWordOf_eq_clear_iff v).mp hcmd) h) (irq_clearResults _) hstep
  · exact irq_after_step (step_accepted_cmd_write hidle hcmd h) (irq_accept _ _) hstep

theorem irq_of_reset {p : Option Request} (hstep : step s = .next t) (h : s.schedule = .reset p :: rest) :
    t.irq = false :=
  irq_after_step (step_of_become (nextAction_reset h)) rfl hstep

end

/-- Settles O42: the two "only at" clauses, then the value of `irq` that each of these events leaves. -/
theorem irqRisesAndFallsOnlyAt : Obligations.IrqRisesAndFallsOnlyAt :=
  fun _ _ hstep => ⟨rfl, irq_rises_at hstep, irq_falls_at hstep, irq_eq_ie_of_busy_falls hstep,
    fun _ _ => irq_of_ctrl_write hstep, fun _ _ => irq_of_accepted_cmd_write hstep, fun _ _ => irq_of_reset hstep⟩

end Sys2Proof.Machine
end

section
/-! PROOFS. Reset and totality (70_reset_and_hazards.md): what the reset step leaves and answers, and that every step has
a next state. -/

namespace Sys2Proof.Machine

section
variable {s : State} {p : Option Request} {rest : List Event}

/-- The reset step leaves the zeroed block with what the host presents later still to come (R120, log entry 10). -/
theorem step_reset (h : s.schedule = .reset p :: rest) : step s = .next (resetBlock (s.withSchedule rest)) :=
  step_of_become (nextAction_reset h)

/-- With `rst_n = 0` the port answers just what is presented, with 0 and without error (R120). -/
theorem stepResponse_reset (h : s.schedule = .reset p :: rest) :
    stepResponse s = p.map fun _ => { rdata := 0, error := false } := by
  cases p with
  | none | some _ => simp [stepResponse, h]

end

/-- Settles O40: the state `resetBlock` leaves is the statement's record, whatever the state and the transaction
presented were. -/
theorem resetZeroesTheBlock : Obligations.ResetZeroesTheBlock :=
  fun _ _ _ hsched => ⟨step_reset hsched, stepResponse_reset hsched, fun _ hstep => irq_of_reset hstep hsched⟩

/-- Settles O46: `step_total` finds the next state case by case, over the schedule's head, `BUSY` and the register
written. -/
theorem everyStepAnswersANextState : Obligations.EveryStepAnswersANextState := by
  intro s
  obtain ⟨t, hstep, -⟩ := step_total s
  exact ⟨t, hstep⟩

end Sys2Proof.Machine
end
